-- ==== Sys2Proof/Word.lean ====
section
/-! DEFINITION. The widths of PAPC's values (00_scope.md R7, R8) and the names of its byte memories. -/

namespace Sys2Proof

/-- A channel value, a payload byte, a frame, a memory cell: CHW = FRAME_BITS = 8 bits, unsigned. -/
abbrev Byte := BitVec 8

/-- A command word, CMDW = 16 bits (00_scope.md R8, 30_encoding.md R54). -/
abbrev CommandWord := BitVec 16

/-- A counter register or the host's data path, CNTW = 32 bits (00_scope.md R8, 10_state.md R28). -/
abbrev Word := BitVec 32

/-- The three byte memories, each an address space of its own (20_memory.md R31). -/
inductive Space where
  /-- The carrier's pixels, never written by the engine (10_state.md R25). -/
  | car
  /-- The private copy ENC writes (10_state.md R25). -/
  | out
  /-- The payload, read by ENC and written by DEC (10_state.md R25). -/
  | msg
deriving DecidableEq, Repr

end Sys2Proof
end

