-- ==== Sys2Proof/Syntax.lean ====
section
/-! DEFINITION. The nine commands of PAPC, one constructor per row of spec/opcode_table.json (30_encoding.md R55). -/

namespace Sys2Proof

/-- A command. FPAR alone has operands: `a`, word bits 11:8, and `w`, word bit 0, taken as the Boolean wantOdd
(30_encoding.md R56). -/
inductive Instr where
  /-- Nothing (44_system.md R89). -/
  | nop
  /-- `F <- toFrame(D)` (40_bit_framer.md R65). -/
  | tofr
  /-- `D <- fromFrame(F)` (40_bit_framer.md R66). -/
  | frfr
  /-- `G[a] <- forceParity(G[a], w)` (41_write_path.md R73). -/
  | fpar (a : BitVec 4) (w : Bool)
  /-- `G <- writeGroup(G, F, M)` (41_write_path.md R74). -/
  | wrg
  /-- `(F, M) <- readGroup(G)` (42_read_path.md R78). -/
  | rdg
  /-- Encode MSG over the image in CAR into OUT (43_orchestration.md R82). -/
  | enc
  /-- Decode the image in CAR into MSG and MLEN (43_orchestration.md R83). -/
  | dec
  /-- Clear a latched error (44_system.md R90). -/
  | clr
deriving DecidableEq, Repr

end Sys2Proof
end

