-- ==== Sys2Proof/WellFormed.lean ====
section
/-! DEFINITION. Which commands a legal word can stand for (30_encoding.md R57). -/

namespace Sys2Proof

/-- The only operand value a command can hold and no legal word does is a group index of 9 to 15
(30_encoding.md R57: "FPAR with `a` in 9..15"). -/
def Instr.wellFormed : Instr → Bool
  | .fpar a _ => a.toNat ≤ 8
  | .nop => true
  | .tofr => true
  | .frfr => true
  | .wrg => true
  | .rdg => true
  | .enc => true
  | .dec => true
  | .clr => true

end Sys2Proof
end

