-- ==== Sys2Proof/Decode.lean ====
section
/-! DEFINITION. The decoder of 30_encoding.md R58, total on all 2^16 words and rejecting by name, and the encoder
written from the same table (30_encoding.md R55). -/

namespace Sys2Proof

/-- Why a word is illegal (30_encoding.md R57). All three raise the one error IllegalCommand. -/
inductive IllegalWord where
  /-- `op` in 0x9..0xF with bits 11:0 zero. -/
  | reservedOpcode
  /-- A bit of `a`, `z` or `w` set where it must be 0. -/
  | reservedBits
  /-- FPAR with `a` in 9..15 and bits 7:1 zero. -/
  | groupIndex
deriving DecidableEq, Repr

/-- Field `op`, word bits 15:12 (30_encoding.md R54). -/
def opField (c : CommandWord) : BitVec 4 := c.extractLsb' 12 4

/-- Field `a`, word bits 11:8 (30_encoding.md R54). -/
def aField (c : CommandWord) : BitVec 4 := c.extractLsb' 8 4

/-- Field `z`, word bits 7:1 (30_encoding.md R54). -/
def zField (c : CommandWord) : BitVec 7 := c.extractLsb' 1 7

/-- Field `w`, word bit 0 (30_encoding.md R54). -/
def wField (c : CommandWord) : Bool := c.getLsbD 0

/-- Word bits 11:0, which every command but FPAR has zero (30_encoding.md R57). -/
def operandBits (c : CommandWord) : BitVec 12 := c.extractLsb' 0 12

/-- The decoding procedure (30_encoding.md R58). -/
def decode (c : CommandWord) : Except IllegalWord Instr :=
  if opField c = 0x3#4 then
    if zField c ≠ 0#7 then .error .reservedBits
    else if (aField c).toNat ≤ 8 then .ok (.fpar (aField c) (wField c))
    else .error .groupIndex
  else if operandBits c ≠ 0#12 then .error .reservedBits
  else if opField c = 0x0#4 then .ok .nop
  else if opField c = 0x1#4 then .ok .tofr
  else if opField c = 0x2#4 then .ok .frfr
  else if opField c = 0x4#4 then .ok .wrg
  else if opField c = 0x5#4 then .ok .rdg
  else if opField c = 0x6#4 then .ok .enc
  else if opField c = 0x7#4 then .ok .dec
  else if opField c = 0x8#4 then .ok .clr
  else .error .reservedOpcode

/-- The word of a command (30_encoding.md R55). -/
def encode : Instr → CommandWord
  | .nop => 0x0000#16
  | .tofr => 0x1000#16
  | .frfr => 0x2000#16
  | .fpar a w => (0x3#4 ++ a ++ 0#7 ++ BitVec.ofBool w : BitVec 16)
  | .wrg => 0x4000#16
  | .rdg => 0x5000#16
  | .enc => 0x6000#16
  | .dec => 0x7000#16
  | .clr => 0x8000#16

/-- The command word a host write to CMD issues: bits 31:16 of the written value are discarded
(10_state.md R20, 30_encoding.md R54). -/
def commandWord (x : Word) : CommandWord := x.setWidth 16

/-- The value a host writes to CMD to issue the table word `w` of `nbits` bits, every bit above them zero. -/
def tableWord (nbits w : Nat) : Word := BitVec.ofNat 32 (w % 2 ^ nbits % 2 ^ 16)

/-- The command the decoder reads from a word numbered as spec/opcode_table.json numbers it. A command is one
16-bit word and is never laid out in memory (30_encoding.md R54, 20_memory.md R47). -/
def decodeTableWord (nbits w : Nat) : Option Instr :=
  match decode (commandWord (tableWord nbits w)) with
  | .ok i => some i
  | .error _ => none

end Sys2Proof
end

