-- ==== Sys2Proof/Config.lean ====
section
/-! DEFINITION. What an implementation fixes (the parameters of 00_scope.md R8) and the free values: bytes the
spec leaves arbitrary. -/

namespace Sys2Proof

/-- The parameters the source leaves to the implementation (00_scope.md R8, 93_implementation_defined.md U13).
They are arguments of the model: the state carries them and no step writes them (notes/assumptions/3.md). -/
structure Params where
  /-- NCH_MAX, the largest NCH the block accepts. -/
  nchMax : Nat
  /-- PIXMEM_BYTES, the capacity of CAR and of OUT. -/
  pixmemBytes : Nat
  /-- MSG_BYTES, the capacity of MSG. -/
  msgBytes : Nat
deriving DecidableEq, Repr

/-- The constraints (a) to (d) an implementation's parameters meet (00_scope.md R9), with CNTW = 32. -/
abbrev Params.Ok (p : Params) : Prop :=
  3 ≤ p.nchMax ∧ p.pixmemBytes < 2 ^ 32 ∧ p.msgBytes < 2 ^ 32 ∧ p.pixmemBytes / 9 ≤ p.msgBytes

/-- DESIGN CHOICE, unsafe (notes/assumptions/3.md): the parameters State.reset carries, those of the programs of
95_test_vectors.md section 3. -/
def Config.resetParams : Params := { nchMax := 4, pixmemBytes := 64, msgBytes := 16 }

/-- FREE VALUE, safe (notes/assumptions/2.md): the byte a cell nothing has written holds
(10_state.md R27, 93_implementation_defined.md U5 "any value"). One value per cell, so that reads are
idempotent (20_memory.md R40). -/
opaque Config.powerUpByte : Space → Nat → Byte

/-- FREE VALUE (notes/assumptions/7.md): the byte a cell holds after the n-th reset, from the byte it held before.
"A model takes the memories after reset as arbitrary byte arrays" (70_reset_and_hazards.md R105;
93_implementation_defined.md U5 "any value"). That reset keeps "whatever they held" is one of its values. -/
opaque Config.resetByte : Nat → Space → Nat → (held : Byte) → Byte

/-- FREE VALUE (notes/assumptions/5.md): the byte a command cut short by the n-th reset leaves in a cell it could have
written, from the byte the cell held when the command was issued and the byte the completed command leaves there
(70_reset_and_hazards.md R105, 93_implementation_defined.md U12 "any value"). -/
opaque Config.cutByte : Nat → Space → Nat → (held completed : Byte) → Byte

end Sys2Proof
end

