-- ==== Sys2Proof/Machine/State.lean ====
section
/-! DEFINITION. The machine's state as plain data (10_state.md), the error kinds (60_exceptions.md R91), the host's
actions (30_encoding.md R59), and the state after reset (10_state.md R27). -/

namespace Sys2Proof.Machine

/-- The error kinds PAPC reports through STATUS (60_exceptions.md R91). They are ENTERED by the command that raises
them (R94), and the machine goes on: none of them is a fault of the model. -/
inductive ErrorKind where
  /-- ENC with MLEN = 0. -/
  | emptyPayload
  /-- ENC with fewer than MLEN groups. -/
  | carrierTooSmall
  /-- DEC with no odd slot 8 in any group. -/
  | unterminatedMessage
  /-- A word that is not one of the 26 legal words. -/
  | illegalCommand
  /-- ENC or DEC with a configuration value outside what the block can hold. -/
  | badConfig
deriving DecidableEq, Repr

/-- STATUS (10_state.md R21), one field per row of its table. Bit 3 is reserved and reads 0, so it has no field. -/
structure Status where
  /-- Bit 0: 1 while a command is executing. -/
  busy : Bool
  /-- Bit 1: the last accepted command was an ENC or DEC that ended without error. -/
  done : Bool
  /-- Bit 2: an error is latched. -/
  errf : Bool
  /-- Bits 7:4: the latched error code. -/
  code : BitVec 4
deriving DecidableEq, Repr

/-- A byte memory: the cells something has written, as (offset, byte) pairs with offsets strictly rising. A cell not
listed holds no value the state knows; reading it gives a free value (notes/assumptions/2.md). -/
abbrev Memory := List Host.Cell

/-- The nine group registers (10_state.md R12). -/
abbrev GroupRegs := Vector Byte 9

/-- The registers of the REG space (10_state.md R11). -/
inductive Reg where
  | cmd
  | status
  | npix
  | nch
  | mlen
  | pxc
  | gix
  | d
  | f
  | m
  | g (k : Fin 9)
deriving DecidableEq, Repr

/-- What the host can do between commands (30_encoding.md R59, 60_exceptions.md R102). -/
inductive HostAction where
  /-- Write a 32-bit value to a register number; a write to number 0 issues a command (10_state.md R19, R20). -/
  | wreg (n : Nat) (v : Word)
  /-- Read a register number (10_state.md R19). -/
  | rreg (n : Nat)
  /-- Write a byte of a memory (20_memory.md R32). -/
  | wmem (sp : Space) (off : Nat) (v : Byte)
  /-- Read a byte of a memory (20_memory.md R32). -/
  | rmem (sp : Space) (off : Nat)
  /-- Assert the reset input with no command executing (70_reset_and_hazards.md R104). -/
  | reset
  /-- Write `x` to CMD and assert the reset input before the command has ended (70_reset_and_hazards.md R104, R105). -/
  | resetDuring (x : Word)
deriving DecidableEq, Repr

/-- The architectural state of PAPC (10_state.md R11), and after it the model's own fields. -/
structure State where
  /-- G0..G8, the channel group (10_state.md R12). -/
  g : GroupRegs
  /-- F, the frame; frame index j is value bit 7 - j (10_state.md R13). -/
  f : Byte
  /-- M, the continuation marker: 0 continue, 1 stop (10_state.md R14). -/
  m : BitVec 1
  /-- D, the data byte (10_state.md R15). -/
  d : Byte
  /-- PXC, the pixel cursor (10_state.md R16). -/
  pxc : Word
  /-- GIX, the group index (10_state.md R17). -/
  gix : Word
  /-- NPIX, the number of pixels in the image (10_state.md R22). -/
  npix : Word
  /-- NCH, channels per pixel (10_state.md R23). -/
  nch : Byte
  /-- MLEN, the payload length (10_state.md R24). -/
  mlen : Word
  /-- STATUS (10_state.md R21). -/
  status : Status
  /-- CAR, the carrier's pixels (10_state.md R25). -/
  car : Memory
  /-- OUT, the private copy (10_state.md R25). -/
  out : Memory
  /-- MSG, the payload (10_state.md R25). -/
  msg : Memory
  /-- The model's own: the implementation parameters, written by no step (00_scope.md R8, notes/assumptions/3.md). -/
  params : Params
  /-- The model's own: the host's actions not yet performed, oldest first (notes/assumptions/1.md). -/
  pending : List HostAction
  /-- The model's own: what the host's last read returned (notes/assumptions/4.md). -/
  reply : Option Word
  /-- The model's own: how many resets have left free bytes behind (notes/assumptions/7.md). -/
  draws : Nat
deriving DecidableEq, Repr

/-- The machine has no fault: no command and no memory access of PAPC stops it (60_exceptions.md R92 "A memory access
never raises anything"; every error kind is entered and the machine goes on, R94). So nobody raises one: safe. -/
inductive Fault where
deriving DecidableEq, Repr

/-- Why a step gives no next state. -/
inductive Refusal where
  /-- An instruction with no meaning yet, by its mnemonic: raised by no arm of exec; safe. -/
  | notModelled (mnemonic : String)
  /-- A host access while BUSY = 1, other than reading STATUS and asserting reset (70_reset_and_hazards.md R108,
  93_implementation_defined.md U6 "refuse"). Raised by `step` only, in states no run from reset reaches; safe. -/
  | hostAccessWhileBusy
deriving DecidableEq, Repr

/-- The registers after reset (10_state.md R27), with no cell of a memory written and no host action pending. The
parameters, the reply and the counter are the model's own: DESIGN CHOICE (notes/assumptions/1.md, 3.md, 4.md, 7.md). -/
def State.reset : State :=
  { g := #v[0, 0, 0, 0, 0, 0, 0, 0, 0]
    f := 0
    m := 0
    d := 0
    pxc := 0
    gix := 0
    npix := 0
    nch := 3
    mlen := 0
    status := { busy := false, done := false, errf := false, code := 0 }
    car := []
    out := []
    msg := []
    params := Config.resetParams
    pending := []
    reply := none
    draws := 0 }

end Sys2Proof.Machine
end

