-- ==== Sys2Proof/Machine/Flags.lean ====
section
/-! DEFINITION. Every flag computation of PAPC: the fields of STATUS (10_state.md R21), the error codes
(60_exceptions.md R91), the parity of a channel value (30_encoding.md R53) and the marker M (10_state.md R14). -/

namespace Sys2Proof.Machine

/-- The code of an error kind (60_exceptions.md R91). -/
def ErrorKind.code : ErrorKind → BitVec 4
  | .emptyPayload => 1#4
  | .carrierTooSmall => 2#4
  | .unterminatedMessage => 3#4
  | .illegalCommand => 4#4
  | .badConfig => 5#4

/-- STATUS as the host reads it: CODE in bits 7:4, bit 3 zero, then ERRF, DONE, BUSY (10_state.md R21). -/
def Status.toByte (st : Status) : Byte :=
  (st.code ++ 0#1 ++ BitVec.ofBool st.errf ++ BitVec.ofBool st.done ++ BitVec.ofBool st.busy : BitVec 8)

/-- STATUS when a command other than NOP is accepted: BUSY set, DONE cleared (10_state.md R21, 44_system.md R88). -/
def Status.accepted (st : Status) : Status := { st with busy := true, done := false }

/-- STATUS when a command ends without error: BUSY cleared (10_state.md R21). -/
def Status.ended (st : Status) : Status := { st with busy := false }

/-- STATUS with DONE set, the last line of ENC and DEC (43_orchestration.md R82, R83). -/
def Status.succeeded (st : Status) : Status := { st with done := true }

/-- STATUS after error entry (60_exceptions.md R94). -/
def Status.raised (k : ErrorKind) : Status := { busy := false, done := false, errf := true, code := k.code }

/-- STATUS after the three assignments of CLR (44_system.md R90). -/
def Status.cleared (st : Status) : Status := { st with errf := false, code := 0, done := false }

/-- The parity of a channel value: its value bit 0, true for odd (30_encoding.md R53). -/
def parity (v : Byte) : Bool := v.getLsbD 0

/-- The marker register's value for a marker: 1 (true) is stop (10_state.md R14, 30_encoding.md R51). -/
def markerReg (stop : Bool) : BitVec 1 := BitVec.ofBool stop

/-- The marker the register M holds, true for stop (10_state.md R14). -/
def State.marker (s : State) : Bool := s.m.getLsbD 0

end Sys2Proof.Machine
end

