-- ==== Sys2Proof/Machine/Operands.lean ====
section
/-! DEFINITION. Every operand form: frame bits (30_encoding.md R49), group slots and their offsets (20_memory.md R35),
register numbers and widths (10_state.md R11, R19), and FPAR's group index (30_encoding.md R56). -/

namespace Sys2Proof.Machine

/-- The bit with frame index `j`: index 0 is the most significant bit (00_scope.md R10, 10_state.md R13). -/
def frameBit (f : Byte) (j : Nat) : Bool := f.getLsbD (7 - j)

/-- The byte whose bit of weight 2^(7-j) is `b j`, for j in 0..7 (30_encoding.md R49). -/
def packBits (b : Nat → Bool) : Byte :=
  BitVec.ofNat 8 ((b 0).toNat * 128 + (b 1).toNat * 64 + (b 2).toNat * 32 + (b 3).toNat * 16
    + (b 4).toNat * 8 + (b 5).toNat * 4 + (b 6).toNat * 2 + (b 7).toNat)

/-- The offset of slot `k` of the group whose first pixel is `p` (20_memory.md R35, R48). -/
def slotOffset (nch p k : Nat) : Nat := (p + k / 3) * nch + k % 3

/-- The slots of a group in the order they are taken (20_memory.md R44 (b), R48). -/
def slots : List (Fin 9) := [0, 1, 2, 3, 4, 5, 6, 7, 8]

/-- The bit slot `k` carries: frame bit k in slots 0..7, the marker in slot 8 (30_encoding.md R50). -/
def slotBit (f : Byte) (m : Bool) (k : Fin 9) : Bool := if k.val < 8 then frameBit f k.val else m

/-- The group register FPAR's field `a` names: 0..8 name G0..G8, 9..15 name none (30_encoding.md R56). -/
def groupIndex (a : BitVec 4) : Option (Fin 9) := if h : a.toNat < 9 then some ⟨a.toNat, h⟩ else none

/-- The register of a register number; 0x0A..0x0F and 0x19 upward name none (10_state.md R11, R19). -/
def regOfNumber (n : Nat) : Option Reg :=
  if h : 0x10 ≤ n ∧ n ≤ 0x18 then some (.g ⟨n - 0x10, by omega⟩)
  else if n = 0x00 then some .cmd
  else if n = 0x01 then some .status
  else if n = 0x02 then some .npix
  else if n = 0x03 then some .nch
  else if n = 0x04 then some .mlen
  else if n = 0x05 then some .pxc
  else if n = 0x06 then some .gix
  else if n = 0x07 then some .d
  else if n = 0x08 then some .f
  else if n = 0x09 then some .m
  else none

/-- A host read of a register: its value zero-extended to 32 bits; CMD reads 0 (10_state.md R19, R20). -/
def readReg (r : Reg) (s : State) : Word :=
  match r with
  | .cmd => 0
  | .status => s.status.toByte.setWidth 32
  | .npix => s.npix
  | .nch => s.nch.setWidth 32
  | .mlen => s.mlen
  | .pxc => s.pxc
  | .gix => s.gix
  | .d => s.d.setWidth 32
  | .f => s.f.setWidth 32
  | .m => s.m.setWidth 32
  | .g k => s.g[k].setWidth 32

/-- A host write of a register other than CMD: the low `width` bits are stored; a read-only register keeps its value
(10_state.md R19). CMD stores nothing (10_state.md R20). -/
def writeReg (r : Reg) (v : Word) (s : State) : State :=
  match r with
  | .cmd => s
  | .status => s
  | .npix => { s with npix := v }
  | .nch => { s with nch := v.setWidth 8 }
  | .mlen => { s with mlen := v }
  | .pxc => s
  | .gix => s
  | .d => { s with d := v.setWidth 8 }
  | .f => { s with f := v.setWidth 8 }
  | .m => { s with m := v.setWidth 1 }
  | .g k => { s with g := s.g.set k (v.setWidth 8) }

end Sys2Proof.Machine
end

