-- ==== Sys2Proof/Machine/Ops.lean ====
section
/-! DEFINITION. The named operations over memory and registers: reads and writes of one byte (20_memory.md R32, R40),
group load and store (R48), command acceptance (44_system.md R88), taking an error and returning from it
(60_exceptions.md R94, R97), and reset (70_reset_and_hazards.md R104, R105). -/

namespace Sys2Proof.Machine

/-- The byte listed at an offset, if any. -/
def Memory.find (a : Nat) : Memory → Option Byte
  | [] => none
  | (b, v) :: rest => if b = a then some v else Memory.find a rest

/-- The memory with `v` listed at offset `a`, offsets kept rising. -/
def Memory.write (a : Nat) (v : Byte) : Memory → Memory
  | [] => [(a, v)]
  | (b, w) :: rest =>
    if a < b then (a, v) :: (b, w) :: rest
    else if a = b then (a, v) :: rest
    else (b, w) :: Memory.write a v rest

/-- Offsets strictly rise, from `lo` on. -/
def Memory.risingFrom : Nat → Memory → Bool
  | _, [] => true
  | lo, (a, _) :: rest => decide (lo ≤ a) && Memory.risingFrom (a + 1) rest

/-- The canonical form of a memory of `cap` cells: offsets strictly rise and lie inside it. An unlisted cell holds no
value the state knows, so no entry can equal what an unlisted cell holds (notes/assumptions/2.md). -/
def Memory.wf (cap : Nat) (m : Memory) : Bool :=
  Memory.risingFrom 0 m && m.all fun c => decide (c.1 < cap)

/-- The memory of a space. -/
def State.mem (s : State) : Space → Memory
  | .car => s.car
  | .out => s.out
  | .msg => s.msg

/-- The capacity of a space in bytes (00_scope.md R8, 20_memory.md R31). -/
def State.cap (s : State) : Space → Nat
  | .car => s.params.pixmemBytes
  | .out => s.params.pixmemBytes
  | .msg => s.params.msgBytes

/-- The state with the memory of a space replaced. -/
def State.setMem (s : State) (sp : Space) (m : Memory) : State :=
  match sp with
  | .car => { s with car := m }
  | .out => { s with out := m }
  | .msg => { s with msg := m }

/-- What a cell of a memory holds: the listed byte, or for a cell nothing has written a free value
(notes/assumptions/2.md). -/
def cellByte (sp : Space) (m : Memory) (off : Nat) : Byte := (Memory.find off m).getD (Config.powerUpByte sp off)

/-- `MemRead(S:off, 1)`: the byte at an offset; 0 at or beyond the capacity (20_memory.md R32). -/
def memRead (sp : Space) (off : Nat) (s : State) : Byte :=
  if off < s.cap sp then cellByte sp (s.mem sp) off else 0

/-- `MemWrite(S:off, 1, v)`: no effect at or beyond the capacity (20_memory.md R32). -/
def memWrite (sp : Space) (off : Nat) (v : Byte) (s : State) : State :=
  if off < s.cap sp then s.setMem sp (Memory.write off v (s.mem sp)) else s

/-- `LoadGroup(S, PXC)` (20_memory.md R48). Reading the slots in order or at once is the same: a read changes nothing. -/
def loadGroup (sp : Space) (s : State) : State :=
  { s with g := Vector.ofFn fun (k : Fin 9) => memRead sp (slotOffset s.nch.toNat s.pxc.toNat k.val) s }

/-- `StoreGroup(S, PXC)`, slots in ascending order (20_memory.md R48). -/
def storeGroup (sp : Space) (s : State) : State :=
  slots.foldl (fun t (k : Fin 9) => memWrite sp (slotOffset s.nch.toNat s.pxc.toNat k.val) s.g[k] t) s

/-- Taking an error: STATUS records it and the command ends there; nothing is saved and no other state changes
(60_exceptions.md R93, R94). -/
def raise (k : ErrorKind) (s : State) : State := { s with status := Status.raised k }

/-- Returning from an error: the three assignments of CLR (60_exceptions.md R97, 44_system.md R90). It restores nothing,
because error entry saved nothing. -/
def clearError (s : State) : State := { s with status := s.status.cleared }

/-- A command accepted: BUSY set and DONE cleared (44_system.md R88, 10_state.md R21). -/
def beginCommand (s : State) : State := { s with status := s.status.accepted }

/-- A command's end: BUSY cleared (10_state.md R21). -/
def endCommand (s : State) : State := { s with status := s.status.ended }

/-- The successful end of ENC and DEC: DONE set (43_orchestration.md R82, R83). -/
def succeed (s : State) : State := { s with status := s.status.succeeded }

/-- A command performed from acceptance to its end. -/
def runCommand (body : State → State) (s : State) : State := endCommand (body (beginCommand s))

/-- Command acceptance of a legal word other than NOP and CLR: dropped while an error is latched, performed otherwise
(44_system.md R88). -/
def accept (body : State → State) (s : State) : Host.Outcome State Fault Refusal :=
  if s.status.errf then .next s else .next (runCommand body s)

/-- What issuing an illegal word does: dropped while an error is latched, else IllegalCommand and nothing else
(44_system.md R88, 30_encoding.md R57). -/
def illegalWord (s : State) : State := if s.status.errf then s else raise .illegalCommand s

/-- `PXC <- PXC + 3; GIX <- GIX + 1` (43_orchestration.md R82, R83; 10_state.md R16, R17). -/
def advance (s : State) : State := { s with pxc := s.pxc + 3, gix := s.gix + 1 }

/-- `PXC <- 0; GIX <- 0` (43_orchestration.md R82, R83). -/
def restartScan (s : State) : State := { s with pxc := 0, gix := 0 }

/-- Every register at its reset value (10_state.md R27, 70_reset_and_hazards.md R104). The memories and the model's own
fields are no registers and stay. -/
def resetRegisters (s : State) : State :=
  { State.reset with
    car := s.car, out := s.out, msg := s.msg
    params := s.params, pending := s.pending, reply := s.reply, draws := s.draws }

/-- The first `n` cells of a space overwritten with the bytes `v off`, in ascending order. -/
def fillCells (sp : Space) (v : Nat → Byte) : Nat → State → State
  | 0, s => s
  | n + 1, s => memWrite sp n (v n) (fillCells sp v n s)

/-- The first `n` cells of a space left arbitrary by a command that reset cut short; the command run to its end gives
`completed` (70_reset_and_hazards.md R105, notes/assumptions/5.md). -/
def scramble (sp : Space) (n : Nat) (completed s : State) : State :=
  fillCells sp (fun off => Config.cutByte s.draws sp off (memRead sp off s) (memRead sp off completed)) n s

/-- Every cell of a space taken as arbitrary by a reset: a free byte of what it held (70_reset_and_hazards.md R105,
notes/assumptions/7.md). -/
def resetMemory (sp : Space) (s : State) : State :=
  fillCells sp (fun off => Config.resetByte s.draws sp off (memRead sp off s)) (s.cap sp) s

/-- The reset input: every register at its reset value, the three memories taken as arbitrary byte arrays
(70_reset_and_hazards.md R104, R105). The counter of resets advances, so that two resets need not leave the same bytes. -/
def resetMachine (s : State) : State :=
  { resetMemory .msg (resetMemory .out (resetMemory .car (resetRegisters s))) with draws := s.draws + 1 }

end Sys2Proof.Machine
end

