-- ==== Sys2Proof/Machine/Codec.lean ====
section
/-! DEFINITION. The Pixel Codec on one group: forceParity, writeGroup (41_write_path.md), readGroup (42_read_path.md),
and the commands FPAR, WRG and RDG. -/

namespace Sys2Proof.Machine

/-- A channel value changed by at most 1 so that its parity is `w`, true for odd: decrement, except that 0 is
incremented (41_write_path.md R68; 90_conflicts.md C1: 255 made even is 254). -/
def forceParity (v : Byte) (w : Bool) : Byte :=
  if w = false then
    if parity v then v - 1 else v
  else if parity v = false then
    if v = 0 then 1 else v - 1
  else v

/-- The group with slot j forced to frame bit j, and slot 8 to the marker (41_write_path.md R70). -/
def writeGroup (g : GroupRegs) (f : Byte) (m : Bool) : GroupRegs :=
  Vector.ofFn fun (k : Fin 9) => forceParity g[k] (slotBit f m k)

/-- The frame and the marker a group's parities spell (42_read_path.md R76). -/
def readGroup (g : GroupRegs) : Byte × Bool :=
  (packBits fun j => if h : j < 9 then parity g[j] else false, parity g[8])

/-- `G <- writeGroup(G, F, M)` (41_write_path.md R74). -/
def applyWrg (s : State) : State := { s with g := writeGroup s.g s.f s.marker }

/-- `(F, M) <- readGroup(G)` (42_read_path.md R78). -/
def applyRdg (s : State) : State := { s with f := (readGroup s.g).1, m := markerReg (readGroup s.g).2 }

/-- `G[k] <- forceParity(G[k], w)` (41_write_path.md R73). -/
def applyFpar (k : Fin 9) (w : Bool) (s : State) : State := { s with g := s.g.set k (forceParity s.g[k] w) }

/-- FPAR a, w (41_write_path.md R73). A group index of 9 to 15 is no legal word: it does what an illegal word does
(30_encoding.md R57). -/
def execFpar (a : BitVec 4) (w : Bool) (s : State) : Host.Outcome State Fault Refusal :=
  match groupIndex a with
  | some k => accept (applyFpar k w) s
  | none => .next (illegalWord s)

/-- WRG (41_write_path.md R74). -/
def execWrg (s : State) : Host.Outcome State Fault Refusal := accept applyWrg s

/-- RDG (42_read_path.md R78). -/
def execRdg (s : State) : Host.Outcome State Fault Refusal := accept applyRdg s

end Sys2Proof.Machine
end

