-- ==== Sys2Proof/Machine/Framer.lean ====
section
/-! DEFINITION. The Bit Framer: toFrame, fromFrame (40_bit_framer.md section 1) and the commands TOFR and FRFR. -/

namespace Sys2Proof.Machine

/-- The frame of a byte: `frame.bit[j] = b[7 - j]` (40_bit_framer.md R61). -/
def toFrame (b : Byte) : Byte := packBits fun j => b.getLsbD (7 - j)

/-- The byte of a frame: the sum of `f.bit[j] * 2^(7-j)` (40_bit_framer.md R62). -/
def fromFrame (f : Byte) : Byte := packBits (frameBit f)

/-- `F <- toFrame(D)` (40_bit_framer.md R65). -/
def applyTofr (s : State) : State := { s with f := toFrame s.d }

/-- `D <- fromFrame(F)` (40_bit_framer.md R66). -/
def applyFrfr (s : State) : State := { s with d := fromFrame s.f }

/-- TOFR (40_bit_framer.md R65). -/
def execTofr (s : State) : Host.Outcome State Fault Refusal := accept applyTofr s

/-- FRFR (40_bit_framer.md R66). -/
def execFrfr (s : State) : Host.Outcome State Fault Refusal := accept applyFrfr s

end Sys2Proof.Machine
end

