-- ==== Sys2Proof/Machine/Orchestration.lean ====
section
/-! DEFINITION. ENC and DEC: their checks, the duplication of the carrier and the group loops
(43_orchestration.md R82, R83). Comparisons are on unbounded naturals (92_eei_decisions.md D30, D35). -/

namespace Sys2Proof.Machine

/-- `NPIX * NCH`, the number of cells the image occupies (20_memory.md R33). -/
def imageCells (s : State) : Nat := s.npix.toNat * s.nch.toNat

/-- NGROUPS = floor(NPIX / 3) (20_memory.md R36). -/
def groupCount (s : State) : Nat := s.npix.toNat / 3

/-- `3 <= NCH <= NCH_MAX` and `NPIX * NCH <= PIXMEM_BYTES`: ENC and DEC raise BadConfig where it fails
(10_state.md R22, R23; 60_exceptions.md R92). -/
def configLegal (s : State) : Bool :=
  decide (3 ≤ s.nch.toNat) && decide (s.nch.toNat ≤ s.params.nchMax) && decide (imageCells s ≤ s.params.pixmemBytes)

/-- The first check of ENC that fails, in the order EmptyPayload, BadConfig, CarrierTooSmall (60_exceptions.md R95). -/
def encError (s : State) : Option ErrorKind :=
  if s.mlen.toNat = 0 then some .emptyPayload
  else if configLegal s = false ∨ s.params.msgBytes < s.mlen.toNat then some .badConfig
  else if s.npix.toNat < 3 * s.mlen.toNat then some .carrierTooSmall
  else none

/-- The check DEC makes before it writes anything (43_orchestration.md R83). -/
def decError (s : State) : Option ErrorKind := if configLegal s = false then some .badConfig else none

/-- ENC's duplication of the carrier: OUT[off] <- CAR[off] for off below NPIX * NCH (43_orchestration.md R82). -/
def copyCarrier (s : State) : State := fillCells .out (fun off => memRead .car off s) (imageCells s) s

/-- `D <- MemRead(MSG:GIX, 1)` (43_orchestration.md R82). -/
def fetchPayload (s : State) : State := { s with d := memRead .msg s.gix.toNat s }

/-- `M <- 1 if GIX = MLEN - 1 else 0` (43_orchestration.md R82, 41_write_path.md R71). -/
def setMarker (s : State) : State := { s with m := markerReg (decide (s.gix.toNat + 1 = s.mlen.toNat)) }

/-- `MemWrite(MSG:GIX, 1, D)` (43_orchestration.md R83). -/
def storePayload (s : State) : State := memWrite .msg s.gix.toNat s.d s

/-- One pass of ENC's group loop (43_orchestration.md R82). -/
def encGroup (s : State) : State :=
  advance (storeGroup .out (applyWrg (loadGroup .car (setMarker (applyTofr (fetchPayload s))))))

/-- `n` passes of ENC's group loop. -/
def encLoop : Nat → State → State
  | 0, s => s
  | n + 1, s => encLoop n (encGroup s)

/-- ENC after its checks: `while GIX < MLEN` from GIX = 0 makes MLEN passes (43_orchestration.md R82). -/
def encRun (s : State) : State := succeed (encLoop s.mlen.toNat (restartScan (copyCarrier s)))

/-- ENC from its first check on (43_orchestration.md R82). -/
def encBody (s : State) : State :=
  match encError s with
  | some k => raise k s
  | none => encRun s

/-- One pass of DEC's group loop up to the test of M (43_orchestration.md R83). -/
def decGroup (s : State) : State := advance (storePayload (applyFrfr (applyRdg (loadGroup .car s))))

/-- The end of DEC at the stopping group: MLEN <- GIX, DONE <- 1 (43_orchestration.md R83). -/
def decFinish (s : State) : State := succeed { s with mlen := s.gix }

/-- DEC's group loop with at most `n` groups left to take (43_orchestration.md R83). With none left the stream is
exhausted, as the loop's own test `PXC + 3 > NPIX` finds (20_memory.md R36). -/
def decLoop : Nat → State → State
  | 0, s => raise .unterminatedMessage s
  | n + 1, s =>
    if s.npix.toNat < s.pxc.toNat + 3 then raise .unterminatedMessage s
    else if (decGroup s).marker then decFinish (decGroup s)
    else decLoop n (decGroup s)

/-- DEC after its check: MLEN <- 0, then the scan from group 0 (43_orchestration.md R83). -/
def decRun (s : State) : State := decLoop (groupCount s) (restartScan { s with mlen := 0 })

/-- DEC from its check on (43_orchestration.md R83). Where the check fails MLEN keeps its value: so R83, R93, R96 and
program P6 of 95_test_vectors.md, against the decode row of 60_exceptions.md R102, which gives MLEN = 0 with CODE 5 too.
DESIGN CHOICE between the two, unsafe (notes/assumptions/14.md). -/
def decBody (s : State) : State :=
  match decError s with
  | some k => raise k s
  | none => decRun s

/-- ENC (43_orchestration.md R82). -/
def execEnc (s : State) : Host.Outcome State Fault Refusal := accept encBody s

/-- DEC (43_orchestration.md R83). -/
def execDec (s : State) : Host.Outcome State Fault Refusal := accept decBody s

end Sys2Proof.Machine
end

