-- ==== Sys2Proof/Machine/System.lean ====
section
/-! DEFINITION. The two commands that exist only for the shell: NOP and CLR (44_system.md section 2). -/

namespace Sys2Proof.Machine

/-- NOP: nothing; DONE is kept, and a latched error drops it with the same effect (44_system.md R89). -/
def execNop (s : State) : Host.Outcome State Fault Refusal := .next s

/-- CLR: performed whether or not an error is latched (44_system.md R88, R90). -/
def execClr (s : State) : Host.Outcome State Fault Refusal := .next (runCommand clearError s)

end Sys2Proof.Machine
end

