-- ==== Sys2Proof/Machine/Dispatch.lean ====
section
/-! DEFINITION. One arm per command: the meaning of a legal word issued while no command is executing
(44_system.md R88, 30_encoding.md R55). -/

namespace Sys2Proof.Machine

def exec (i : Instr) (s : State) : Host.Outcome State Fault Refusal :=
  match i with
  | .nop => Sys2Proof.Machine.execNop s
  | .tofr => Sys2Proof.Machine.execTofr s
  | .frfr => Sys2Proof.Machine.execFrfr s
  | .fpar a w => Sys2Proof.Machine.execFpar a w s
  | .wrg => Sys2Proof.Machine.execWrg s
  | .rdg => Sys2Proof.Machine.execRdg s
  | .enc => Sys2Proof.Machine.execEnc s
  | .dec => Sys2Proof.Machine.execDec s
  | .clr => Sys2Proof.Machine.execClr s

end Sys2Proof.Machine
end

