-- ==== Sys2Proof/Machine/Host.lean ====
section
/-! DEFINITION. What the host can do between commands (60_exceptions.md R102; 30_encoding.md R59): register and memory
accesses, issuing a command, reset. -/

namespace Sys2Proof.Machine

/-- A host write of `x` to CMD (44_system.md R88, 10_state.md R20). -/
def issue (x : Word) (s : State) : Host.Outcome State Fault Refusal :=
  match decode (commandWord x) with
  | .ok i => exec i s
  | .error _ => .next (illegalWord s)

/-- A host write of `v` to register number `n`; a number that names no register has no effect (10_state.md R19). -/
def hostWriteReg (n : Nat) (v : Word) (s : State) : Host.Outcome State Fault Refusal :=
  match regOfNumber n with
  | none => .next s
  | some r => if r = .cmd then issue v s else .next (writeReg r v s)

/-- What a host read of register number `n` returns; 0 where the number names no register (10_state.md R19). -/
def hostReadReg (n : Nat) (s : State) : Word :=
  match regOfNumber n with
  | none => 0
  | some r => readReg r s

/-- The memory cells a command word issued now and cut short by reset leaves arbitrary: those the command could have
written (70_reset_and_hazards.md R105). A dropped or illegal word, a command that fails its checks and a command that
writes no memory leave none (DEDUCED, notes/assumptions/5.md). -/
def cutShort (i : Instr) (s : State) : State :=
  match i with
  | .enc => if s.status.errf = false ∧ encError s = none then scramble .out (imageCells s) (encBody s) s else s
  | .dec => if s.status.errf = false ∧ decError s = none then scramble .msg (groupCount s) (decBody s) s else s
  | .nop => s
  | .tofr => s
  | .frfr => s
  | .fpar _ _ => s
  | .wrg => s
  | .rdg => s
  | .clr => s

/-- A host write of `x` to CMD with reset asserted before the command has ended (70_reset_and_hazards.md R104, R105). -/
def issueThenReset (x : Word) (s : State) : State :=
  match decode (commandWord x) with
  | .ok i => resetMachine (cutShort i s)
  | .error _ => resetMachine s

/-- One host action (30_encoding.md R59). A read leaves its value in `reply` (notes/assumptions/4.md). -/
def hostAct (a : HostAction) (s : State) : Host.Outcome State Fault Refusal :=
  match a with
  | .wreg n v => hostWriteReg n v s
  | .rreg n => .next { s with reply := some (hostReadReg n s) }
  | .wmem sp off v => .next (memWrite sp off v s)
  | .rmem sp off => .next { s with reply := some ((memRead sp off s).setWidth 32) }
  | .reset => .next (resetMachine s)
  | .resetDuring x => .next (issueThenReset x s)

/-- The accesses allowed while BUSY = 1: reading STATUS, and the reset input (70_reset_and_hazards.md R108). -/
def allowedWhileBusy : HostAction → Bool
  | .wreg _ _ => false
  | .rreg n => n == 1
  | .wmem _ _ _ => false
  | .rmem _ _ => false
  | .reset => true
  | .resetDuring _ => false

/-- The host's next action performed; with none pending the block waits and nothing changes
(70_reset_and_hazards.md R104). -/
def hostStep (s : State) : Host.Outcome State Fault Refusal :=
  match s.pending with
  | [] => .next s
  | a :: rest =>
    if s.status.busy = true ∧ allowedWhileBusy a = false then .refused .hostAccessWhileBusy
    else hostAct a { s with pending := rest }

/-- The state with a write of `x` to CMD as the host's very next action. -/
def pendCommand (x : Word) (s : State) : State := { s with pending := .wreg 0 x :: s.pending }

/-- COPYOUT: the host copies OUT[0 .. NPIX*NCH-1] to CAR at the same offsets, standing for the lossless save and re-open
of the image (30_encoding.md R60, 70_reset_and_hazards.md R109). -/
def copyOut (s : State) : State := fillCells .car (fun off => memRead .out off s) (imageCells s) s

end Sys2Proof.Machine
end

