-- ==== Sys2Proof/Machine/Step.lean ====
section
/-! DEFINITION. One step of the machine: the host's next action, a whole command being one atomic step
(44_system.md R88, 70_reset_and_hazards.md R113). -/

namespace Sys2Proof.Machine

/-- One step (notes/assumptions/1.md). -/
def step (s : State) : Host.Outcome State Fault Refusal := hostStep s

/-- `s` with the table word `w` written to CMD as the host's very next action (notes/assumptions/1.md). -/
def State.withFetchWord (s : State) (nbits w : Nat) : State := pendCommand (tableWord nbits w) s

end Sys2Proof.Machine
end

