-- ==== Sys2Proof/Machine/Contract.lean ====
section
/-! DEFINITION. The contract layer over whole byte sequences and images, as pure functions (00_scope.md R6): toFrames,
fromFrames (40_bit_framer.md), markers, write (41_write_path.md), read (42_read_path.md), encode, decode
(43_orchestration.md R80, R81). ENC and DEC are these functions applied to memories. -/

namespace Sys2Proof.Machine

/-- An image as the block sees it: pixels packed and channel-interleaved, channel c of pixel p at index
p * nch + c (20_memory.md R33). -/
structure Image where
  /-- The number of pixels. -/
  npix : Nat
  /-- Channel values per pixel. -/
  nch : Nat
  /-- The channel values, pixel after pixel. -/
  cells : List Byte
deriving DecidableEq, Repr

/-- An image holds one value per channel of each pixel, and at least three channels (00_scope.md section 6, "pixel"). -/
def Image.ok (im : Image) : Bool := decide (im.cells.length = im.npix * im.nch) && decide (3 ≤ im.nch)

/-- Group `i` of an image: slot k is channel k mod 3 of pixel 3i + k div 3 (20_memory.md R35). -/
def Image.group (im : Image) (i : Nat) : GroupRegs :=
  Vector.ofFn fun (k : Fin 9) => im.cells.getD (slotOffset im.nch (3 * i) k.val) 0

/-- The image with the nine slot values of group `i` replaced. -/
def Image.setGroup (im : Image) (i : Nat) (g : GroupRegs) : Image :=
  { im with cells := slots.foldl (fun cs (k : Fin 9) => cs.set (slotOffset im.nch (3 * i) k.val) g[k]) im.cells }

/-- One frame per byte, in order; the empty payload fails (40_bit_framer.md R63). -/
def toFrames (p : List Byte) : Except ErrorKind (List Byte) :=
  if p = [] then .error .emptyPayload else .ok (p.map toFrame)

/-- One byte per frame, in order (40_bit_framer.md R64). -/
def fromFrames (fs : List Byte) : List Byte := fs.map fromFrame

/-- The markers of a payload of `l` bytes: all 0 but the last, 1 (true, stop) (41_write_path.md R71). `markers 0` is
never asked for (93_implementation_defined.md U16, notes/assumptions/9.md). -/
def markers : Nat → List Bool
  | 0 => []
  | 1 => [true]
  | n + 2 => false :: markers (n + 1)

/-- Group i, i+1, ... replaced by writeGroup of itself, a frame and a marker (41_write_path.md R72). -/
def writeGroups : Nat → List Byte → List Bool → Image → Image
  | _, [], _, im => im
  | _, _ :: _, [], im => im
  | i, f :: fs, m :: ms, im => writeGroups (i + 1) fs ms (im.setGroup i (writeGroup (im.group i) f m))

/-- `write(pixels, frames, ms)` (41_write_path.md R72). -/
def write (im : Image) (fs : List Byte) (ms : List Bool) : Except ErrorKind Image :=
  if im.npix / 3 < fs.length then .error .carrierTooSmall else .ok (writeGroups 0 fs ms im)

/-- `encode(carrier, P)` (43_orchestration.md R80). -/
def encodeImage (im : Image) (p : List Byte) : Except ErrorKind Image :=
  match toFrames p with
  | .error k => .error k
  | .ok fs => if im.npix < 3 * p.length then .error .carrierTooSmall else write im fs (markers p.length)

/-- The groups from `i` on, at most `n` of them: bytes up to and with that of the first group whose marker is 1
(42_read_path.md R77). -/
def readGroups : Nat → Nat → Image → Except ErrorKind (List Byte)
  | 0, _, _ => .error .unterminatedMessage
  | n + 1, i, im =>
    if (readGroup (im.group i)).2 then .ok [fromFrame (readGroup (im.group i)).1]
    else
      match readGroups n (i + 1) im with
      | .error k => .error k
      | .ok bs => .ok (fromFrame (readGroup (im.group i)).1 :: bs)

/-- `read(pixels)`: the groups of an image are those numbered below floor(NPIX/3) (42_read_path.md R77,
20_memory.md R36). -/
def read (im : Image) : Except ErrorKind (List Byte) := readGroups (im.npix / 3) 0 im

/-- `decode(image)` (43_orchestration.md R81). -/
def decodeImage (im : Image) : Except ErrorKind (List Byte) := read im

/-- The image a pixel memory holds: its first NPIX * NCH cells (20_memory.md R33). -/
def imageOf (sp : Space) (s : State) : Image :=
  { npix := s.npix.toNat, nch := s.nch.toNat, cells := (List.range (imageCells s)).map fun o => memRead sp o s }

/-- The payload MSG[0 .. MLEN-1] (20_memory.md R37). -/
def payloadOf (s : State) : List Byte := (List.range s.mlen.toNat).map fun i => memRead .msg i s

end Sys2Proof.Machine
end

