-- ==== Sys2Proof/Safety.lean ====
section
/-! DEFINITION. The invariants the spec promises whenever no command is executing, and the conditions under which a
command runs, in the terms the claims use. -/

namespace Sys2Proof.Machine

/-- STATUS between commands: BUSY = 0; ERRF = 0 implies CODE = 0; ERRF = 1 implies DONE = 0 and CODE in 1..5
(10_state.md R21). -/
abbrev Status.Ok (st : Status) : Prop :=
  st.busy = false ∧ (st.errf = false → st.code = 0)
    ∧ (st.errf = true → st.done = false ∧ 1 ≤ st.code.toNat ∧ st.code.toNat ≤ 5)

/-- Every memory in its canonical form, inside its capacity. -/
abbrev State.MemOk (s : State) : Prop :=
  s.car.wf s.params.pixmemBytes = true ∧ s.out.wf s.params.pixmemBytes = true ∧ s.msg.wf s.params.msgBytes = true

/-- The machine's invariant between steps: parameters within R9, STATUS as R21 says, `PXC = 3 * GIX` (10_state.md R16,
R17), memories in canonical form. -/
abbrev State.Inv (s : State) : Prop :=
  s.params.Ok ∧ s.status.Ok ∧ s.pxc.toNat = 3 * s.gix.toNat ∧ s.MemOk

/-- No error is latched: commands are accepted (44_system.md R88). -/
abbrev State.Accepting (s : State) : Prop := s.status.errf = false

/-- The configuration ENC and DEC accept: `3 <= NCH <= NCH_MAX` and `NPIX * NCH <= PIXMEM_BYTES`
(60_exceptions.md R92). -/
abbrev State.ConfigLegal (s : State) : Prop :=
  3 ≤ s.nch.toNat ∧ s.nch.toNat ≤ s.params.nchMax ∧ s.npix.toNat * s.nch.toNat ≤ s.params.pixmemBytes

/-- ENC runs to its end: `1 <= MLEN <= MSG_BYTES`, a legal configuration, `3 * MLEN <= NPIX`
(43_orchestration.md R84). -/
abbrev State.EncReady (s : State) : Prop :=
  s.Accepting ∧ s.ConfigLegal ∧ 1 ≤ s.mlen.toNat ∧ s.mlen.toNat ≤ s.params.msgBytes ∧ 3 * s.mlen.toNat ≤ s.npix.toNat

/-- Every byte of every memory reads the same in `t` as in `s`. -/
def SameBytes (s t : State) : Prop := ∀ sp off, memRead sp off t = memRead sp off s

/-- Every byte of one memory reads the same in `t` as in `s`. -/
def SameBytesIn (sp : Space) (s t : State) : Prop := ∀ off, memRead sp off t = memRead sp off s

/-- STATUS after error entry with code `n` (60_exceptions.md R94). -/
def statusOfError (n : BitVec 4) : Status := { busy := false, done := false, errf := true, code := n }

/-- The registers hold their reset values in `t` (10_state.md R27). -/
def RegistersReset (t : State) : Prop :=
  t.status.toByte = 0 ∧ t.npix = 0 ∧ t.nch = 3 ∧ t.mlen = 0 ∧ t.pxc = 0 ∧ t.gix = 0 ∧ t.d = 0 ∧ t.f = 0 ∧ t.m = 0
    ∧ ∀ k : Fin 9, t.g[k] = 0

/-- Every cell of one memory but those of `lost` holds in `t` what the reset taken in `s` makes of the byte it held: a
free value of it (70_reset_and_hazards.md R105, notes/assumptions/7.md). -/
def ResetBytesIn (sp : Space) (lost : Nat → Prop) (s t : State) : Prop :=
  ∀ off, off < s.cap sp → ¬ lost off → memRead sp off t = Config.resetByte s.draws sp off (memRead sp off s)

/-- The fields that are the model's own, no part of PAPC, are the same in `t` as in `s`. -/
def SameOwn (s t : State) : Prop :=
  t.params = s.params ∧ t.pending = s.pending ∧ t.reply = s.reply ∧ t.draws = s.draws

/-- STATUS after a command that was accepted in `s` and ended without error, ENC and DEC aside: DONE and BUSY are 0, the
latch is as it was (44_system.md R88, 10_state.md R21). -/
def statusAfterPrimitive (s : State) : Status := { s.status with busy := false, done := false }

/-- STATUS after a successful ENC or DEC: DONE is 1, BUSY is 0, the latch is as it was (10_state.md R21). -/
def statusAfterSuccess (s : State) : Status := { s.status with busy := false, done := true }

/-- The words that are legal (30_encoding.md R57), read off the word's number. -/
abbrev LegalWord (c : CommandWord) : Prop :=
  (c.toNat / 4096 ∈ [0, 1, 2, 4, 5, 6, 7, 8] ∧ c.toNat % 4096 = 0)
    ∨ (c.toNat / 4096 = 3 ∧ c.toNat / 256 % 16 ≤ 8 ∧ c.toNat / 2 % 128 = 0)

/-- The word with the given fields `op`, `a`, `z`, `w` (30_encoding.md R54). -/
def wordOf (op a z w : Nat) : CommandWord := BitVec.ofNat 16 (4096 * op + 256 * a + 2 * z + w)

/-- `bit(i, k)` of an ENC (43_orchestration.md R85): value bit 7 - k of MSG[i] for k <= 7, and for k = 8 whether group
`i` is the last. -/
def encBit (s : State) (i k : Nat) : Bool :=
  if k ≤ 7 then (memRead .msg i s).getLsbD (7 - k) else decide (i = s.mlen.toNat - 1)

/-- `off(i, k)`, the offset of slot `k` of group `i` in the pixel memories (43_orchestration.md R85), by the operand form
the meanings use. -/
def slotAt (s : State) (i k : Nat) : Nat := slotOffset s.nch.toNat (3 * i) k

/-- Offset `o` is a slot of one of the first `n` groups. -/
def IsSlotBelow (s : State) (n o : Nat) : Prop := ∃ i k, i < n ∧ k < 9 ∧ o = slotAt s i k

/-- Group `i` is a group of the image, and its slot 8 in CAR is odd (43_orchestration.md R86). -/
abbrev StopGroup (s : State) (i : Nat) : Prop :=
  3 * i + 3 ≤ s.npix.toNat ∧ (memRead .car ((3 * i + 2) * s.nch.toNat + 2) s).toNat % 2 = 1

/-- The byte the parities of slots 0..7 of group `i` of CAR spell (43_orchestration.md R86). -/
def groupByte (s : State) (i : Nat) : Nat :=
  ∑ j ∈ Finset.range 8, ((memRead .car ((3 * i + j / 3) * s.nch.toNat + j % 3) s).toNat % 2) * 2 ^ (7 - j)

end Sys2Proof.Machine
end

