-- ==== Sys2Proof/Certificates/Slice0/Obligations.lean ====
section
/-! DEFINITION. The statements about PAPC that are to be proved, from the numbered rules of spec/. -/

open Sys2Proof Sys2Proof.Machine

/-! ### Encodings -/

/-- 30_encoding.md R55, R57, R58: decoding inverts encoding, and a word decodes to one command only, whose word it is. -/
def Obligations.DecodeEncodeAgree : Prop :=
  ∀ (i : Instr) (c : CommandWord), decode c = .ok i ↔ (i.wellFormed = true ∧ encode i = c)

/-- 30_encoding.md R58: the decoding procedure, on every word by its four fields. -/
def Obligations.DecodingProcedure : Prop :=
  ∀ op a z w : Nat, op < 16 → a < 16 → z < 128 → w < 2 →
    (op = 3 → a ≤ 8 ∧ z = 0 → decode (wordOf op a z w) = .ok (.fpar (BitVec.ofNat 4 a) (decide (w = 1))))
    ∧ (op = 3 → ¬ (a ≤ 8 ∧ z = 0) → ∃ e, decode (wordOf op a z w) = .error e)
    ∧ (op ≠ 3 → ¬ (a = 0 ∧ z = 0 ∧ w = 0) → ∃ e, decode (wordOf op a z w) = .error e)
    ∧ (op ≠ 3 → (a = 0 ∧ z = 0 ∧ w = 0) →
        (op = 0 → decode (wordOf op a z w) = .ok .nop) ∧ (op = 1 → decode (wordOf op a z w) = .ok .tofr)
        ∧ (op = 2 → decode (wordOf op a z w) = .ok .frfr) ∧ (op = 4 → decode (wordOf op a z w) = .ok .wrg)
        ∧ (op = 5 → decode (wordOf op a z w) = .ok .rdg) ∧ (op = 6 → decode (wordOf op a z w) = .ok .enc)
        ∧ (op = 7 → decode (wordOf op a z w) = .ok .dec) ∧ (op = 8 → decode (wordOf op a z w) = .ok .clr)
        ∧ (8 < op → ∃ e, decode (wordOf op a z w) = .error e))

/-- 30_encoding.md R57: which words are legal, that there are 26 of them, and what issuing an illegal one does while no
error is latched. -/
def Obligations.LegalWordsExactly : Prop :=
  (∀ c : CommandWord, (∃ i, decode c = .ok i) ↔ LegalWord c)
  ∧ (∃ l : List CommandWord, l.Nodup ∧ l.length = 26 ∧ ∀ c, c ∈ l ↔ LegalWord c)
  ∧ ∀ (x : Word) (s : State), ¬ LegalWord (commandWord x) → s.Accepting →
      issue x s = .next { s with status := statusOfError 4 }

/-- 30_encoding.md R55, R59: words written out in the spec decode to the commands they stand for. -/
def Obligations.SampleWordsDecode : Prop :=
  decode 0x0000#16 = .ok .nop ∧ decode 0x1000#16 = .ok .tofr ∧ decode 0x2000#16 = .ok .frfr
  ∧ decode 0x3101#16 = .ok (.fpar 1#4 true) ∧ decode 0x3800#16 = .ok (.fpar 8#4 false)
  ∧ decode 0x4000#16 = .ok .wrg ∧ decode 0x5000#16 = .ok .rdg ∧ decode 0x6000#16 = .ok .enc
  ∧ decode 0x7000#16 = .ok .dec ∧ decode 0x8000#16 = .ok .clr

/-! ### Contract functions -/

/-- 40_bit_framer.md R61, R62: the frame of a byte, its examples, and the byte of a frame. -/
def Obligations.FrameFormat : Prop :=
  (∀ (b : Byte) (j : Nat), j < 8 → frameBit (toFrame b) j = b.getLsbD (7 - j))
  ∧ (∀ f : Byte, (fromFrame f).toNat = ∑ j ∈ Finset.range 8, (frameBit f j).toNat * 2 ^ (7 - j))
  ∧ (List.range 8).map (frameBit (toFrame 0x00#8)) = [false, false, false, false, false, false, false, false]
  ∧ (List.range 8).map (frameBit (toFrame 0xFF#8)) = [true, true, true, true, true, true, true, true]
  ∧ (List.range 8).map (frameBit (toFrame 0x80#8)) = [true, false, false, false, false, false, false, false]
  ∧ (List.range 8).map (frameBit (toFrame 0x01#8)) = [false, false, false, false, false, false, false, true]
  ∧ (List.range 8).map (frameBit (toFrame 0x48#8)) = [false, true, false, false, true, false, false, false]

/-- 40_bit_framer.md R67: the framer's round trips, on bytes, on payloads and in registers. -/
def Obligations.FramerRoundTrips : Prop :=
  (∀ b : Byte, fromFrame (toFrame b) = b) ∧ (∀ f : Byte, toFrame (fromFrame f) = f)
  ∧ (∀ p : List Byte, p ≠ [] → ∃ fs, toFrames p = .ok fs ∧ fromFrames fs = p)
  ∧ (∀ s : State, s.Accepting → ∃ t u, exec .tofr s = .next t ∧ exec .frfr t = .next u ∧ u.d = s.d)
  ∧ (∀ s : State, s.Accepting → ∃ t u, exec .frfr s = .next t ∧ exec .tofr t = .next u ∧ u.f = s.f)

/-- 41_write_path.md R68: forceParity case by case, on numbers, with the examples of the rule. -/
def Obligations.ForceParityCases : Prop :=
  (∀ v : Byte,
    (v.toNat % 2 = 1 → (forceParity v false).toNat = v.toNat - 1)
    ∧ (v.toNat % 2 = 0 → forceParity v false = v)
    ∧ (v.toNat % 2 = 0 → v.toNat = 0 → (forceParity v true).toNat = 1)
    ∧ (v.toNat % 2 = 0 → v.toNat ≠ 0 → (forceParity v true).toNat = v.toNat - 1)
    ∧ (v.toNat % 2 = 1 → forceParity v true = v))
  ∧ forceParity 2 true = 1 ∧ forceParity 255 false = 254 ∧ forceParity 254 true = 253

/-- 41_write_path.md R69 (a) to (h): the laws of forceParity. (g), that the increment is never taken at 255, is the
clause on `v = 0`. (h) says which bits a change touches. The last two lines are the rule's table of boundary values. -/
def Obligations.ForceParityLaws : Prop :=
  (∀ (v : Byte) (w : Bool),
    (forceParity v w).toNat ≤ 255
    ∧ (forceParity v w).toNat % 2 = w.toNat
    ∧ (forceParity v w).toNat ≤ v.toNat + 1 ∧ v.toNat ≤ (forceParity v w).toNat + 1
    ∧ (forceParity v w = v ↔ v.toNat % 2 = w.toNat)
    ∧ (v.toNat % 2 ≠ w.toNat → ¬ (v = 0 ∧ w = true) → (forceParity v w).toNat + 1 = v.toNat)
    ∧ forceParity 0 true = 1
    ∧ forceParity (forceParity v w) w = forceParity v w
    ∧ (v.toNat < (forceParity v w).toNat → v = 0)
    ∧ (v.toNat % 2 = 1 → (forceParity v false).toNat = v.toNat / 2 * 2)
    ∧ (v.toNat % 2 = 0 → 2 ≤ v.toNat → (forceParity v true).toNat / 2 + 1 = v.toNat / 2))
  ∧ [0, 1, 2, 3, 127, 128, 253, 254, 255].map (fun v => forceParity v false) = [0, 0, 2, 2, 126, 128, 252, 254, 254]
  ∧ [0, 1, 2, 3, 127, 128, 253, 254, 255].map (fun v => forceParity v true) = [1, 1, 1, 3, 127, 127, 253, 253, 255]

/-- 41_write_path.md R70: every slot of a written group, on its own, and the parities it then has. -/
def Obligations.WriteGroupSlots : Prop :=
  ∀ (g : GroupRegs) (f : Byte) (m : Bool),
    (∀ k : Fin 9, k.val < 8 → (writeGroup g f m)[k] = forceParity g[k] (frameBit f k.val))
    ∧ (writeGroup g f m)[8] = forceParity g[8] m
    ∧ (∀ k : Fin 9, k.val < 8 → (writeGroup g f m)[k].toNat % 2 = (frameBit f k.val).toNat)
    ∧ (writeGroup g f m)[8].toNat % 2 = m.toNat

/-- 42_read_path.md R76: the frame and marker a group's parities spell, and that reading undoes writing. -/
def Obligations.ReadGroupParities : Prop :=
  (∀ (g : GroupRegs), (∀ k : Fin 9, k.val < 8 → (frameBit (readGroup g).1 k.val).toNat = g[k].toNat % 2)
    ∧ (readGroup g).2.toNat = g[8].toNat % 2)
  ∧ ∀ (g : GroupRegs) (f : Byte) (m : Bool), readGroup (writeGroup g f m) = (f, m)

/-- 41_write_path.md R71: the markers of a payload, and that an empty payload never comes to them. -/
def Obligations.MarkersStopLast : Prop :=
  (∀ l : Nat, 1 ≤ l → (markers l).length = l ∧ ∀ i, i < l → (markers l)[i]? = some (decide (i = l - 1)))
  ∧ markers 1 = [true] ∧ ∀ im : Image, encodeImage im [] = .error .emptyPayload

/-- 43_orchestration.md R80: encode's two failures, and its result in closed form. -/
def Obligations.EncodeImageClosedForm : Prop :=
  ∀ (im : Image) (p : List Byte), im.ok = true →
    (p = [] → encodeImage im p = .error .emptyPayload)
    ∧ (p ≠ [] → im.npix < 3 * p.length → encodeImage im p = .error .carrierTooSmall)
    ∧ (p ≠ [] → 3 * p.length ≤ im.npix → ∃ im', encodeImage im p = .ok im'
        ∧ im'.npix = im.npix ∧ im'.nch = im.nch ∧ im'.cells.length = im.cells.length
        ∧ (∀ i k, i < p.length → k < 8 → im'.cells.getD (slotOffset im.nch (3 * i) k) 0
            = forceParity (im.cells.getD (slotOffset im.nch (3 * i) k) 0) (frameBit (toFrame (p.getD i 0)) k))
        ∧ (∀ i, i < p.length → im'.cells.getD (slotOffset im.nch (3 * i) 8) 0
            = forceParity (im.cells.getD (slotOffset im.nch (3 * i) 8) 0) (decide (i = p.length - 1)))
        ∧ (∀ o, (∀ i k, i < p.length → k < 9 → o ≠ slotOffset im.nch (3 * i) k) →
            im'.cells.getD o 0 = im.cells.getD o 0))

/-- 42_read_path.md R77: read takes groups from group 0 up to and with the first whose slot 8 is odd, and fails if
there is none. -/
def Obligations.ReadStopsAtFirstOdd : Prop :=
  ∀ im : Image,
    (∀ n, 3 * n + 3 ≤ im.npix → (im.group n)[8].toNat % 2 = 1 → (∀ j, j < n → (im.group j)[8].toNat % 2 = 0) →
      Sys2Proof.Machine.read im = .ok ((List.range (n + 1)).map fun i => fromFrame (readGroup (im.group i)).1))
    ∧ ((∀ j, 3 * j + 3 ≤ im.npix → (im.group j)[8].toNat % 2 = 0) →
      Sys2Proof.Machine.read im = .error .unterminatedMessage)

/-- 41_write_path.md R72: write fails where the image has too few groups, and otherwise replaces each group's nine slots
by writeGroup of it and leaves every other channel value. -/
def Obligations.WriteFollowsRule : Prop :=
  ∀ (im : Image) (fs : List Byte), im.ok = true → fs ≠ [] →
    (im.npix / 3 < fs.length → write im fs (markers fs.length) = .error .carrierTooSmall)
    ∧ (fs.length ≤ im.npix / 3 → ∃ im', write im fs (markers fs.length) = .ok im'
        ∧ im'.npix = im.npix ∧ im'.nch = im.nch ∧ im'.cells.length = im.cells.length
        ∧ (∀ i, i < fs.length →
            im'.group i = writeGroup (im.group i) (fs.getD i 0) ((markers fs.length).getD i false))
        ∧ (∀ o, (∀ i k, i < fs.length → k < 9 → o ≠ slotOffset im.nch (3 * i) k) →
            im'.cells.getD o 0 = im.cells.getD o 0))

/-! ### The register commands: result, frame and completion -/

/-- 44_system.md R89: NOP changes nothing, DONE and a latched error included, and no other word has its opcode. -/
def Obligations.NopChangesNothing : Prop :=
  decode 0x0000#16 = .ok .nop ∧ (∀ s : State, exec .nop s = .next s)
  ∧ ∀ c : CommandWord, c.toNat / 4096 = 0 → c.toNat % 4096 ≠ 0 → ∃ e, decode c = .error e

/-- 40_bit_framer.md R65: TOFR copies the value of D into F bit for bit, clears DONE and changes nothing else. -/
def Obligations.TofrFollowsRule : Prop :=
  decode 0x1000#16 = .ok .tofr
  ∧ (∀ c : CommandWord, c.toNat / 4096 = 1 → c.toNat % 4096 ≠ 0 → ∃ e, decode c = .error e)
  ∧ ∀ s : State, s.Accepting → ∃ t, exec .tofr s = .next t
      ∧ (∀ j, j < 8 → frameBit t.f j = s.d.getLsbD (7 - j)) ∧ t.f = s.d
      ∧ t = { s with f := t.f, status := statusAfterPrimitive s }

/-- 40_bit_framer.md R66: FRFR copies the value of F into D, clears DONE and changes nothing else. -/
def Obligations.FrfrFollowsRule : Prop :=
  decode 0x2000#16 = .ok .frfr
  ∧ ∀ s : State, s.Accepting → ∃ t, exec .frfr s = .next t
      ∧ t.d.toNat = (∑ j ∈ Finset.range 8, (frameBit s.f j).toNat * 2 ^ (7 - j)) ∧ t.d = s.f
      ∧ t = { s with d := t.d, status := statusAfterPrimitive s }

/-- 41_write_path.md R73: FPAR forces the parity of the register it names, clears DONE and changes nothing else, for
every legal operand pair; its other words are illegal. -/
def Obligations.FparFollowsRule : Prop :=
  (∀ a w : Nat, a ≤ 8 → w ≤ 1 →
    decode (BitVec.ofNat 16 (0x3000 + 0x100 * a + w)) = .ok (.fpar (BitVec.ofNat 4 a) (decide (w = 1))))
  ∧ (∀ (a z w : Nat) (x : Word) (s : State), a < 16 → z < 128 → w < 2 → (9 ≤ a ∨ z ≠ 0) → commandWord x = wordOf 3 a z w →
      s.Accepting → issue x s = .next { s with status := statusOfError 4 })
  ∧ ∀ (a : BitVec 4) (w : Bool) (s : State) (ha : a.toNat ≤ 8), s.Accepting → ∃ t, exec (.fpar a w) s = .next t
      ∧ t.g[a.toNat] = forceParity s.g[a.toNat] w
      ∧ (∀ k : Fin 9, k.val ≠ a.toNat → t.g[k] = s.g[k])
      ∧ t = { s with g := t.g, status := statusAfterPrimitive s }

/-- 30_encoding.md R56, R57: an FPAR whose index names no register raises IllegalCommand while no error is latched and
does nothing while one is; nothing else changes. That such a command acts as its illegal word is DEDUCED
(notes/assumptions/11.md). -/
def Obligations.FparWithNoRegisterIsIllegal : Prop :=
  ∀ (a : BitVec 4) (w : Bool) (s : State), 9 ≤ a.toNat →
    (s.Accepting → exec (.fpar a w) s = .next { s with status := statusOfError 4 })
    ∧ (¬ s.Accepting → exec (.fpar a w) s = .next s)

/-- 41_write_path.md R74: WRG forces the nine parities, clears DONE and changes nothing else; issued again it changes
nothing. -/
def Obligations.WrgFollowsRule : Prop :=
  decode 0x4000#16 = .ok .wrg
  ∧ ∀ s : State, s.Accepting → ∃ t, exec .wrg s = .next t
      ∧ (∀ k : Fin 9, k.val < 8 → t.g[k] = forceParity s.g[k] (frameBit s.f k.val))
      ∧ t.g[8] = forceParity s.g[8] (decide (s.m = 1))
      ∧ (∀ k : Fin 9, k.val < 8 → t.g[k].toNat % 2 = (frameBit s.f k.val).toNat) ∧ t.g[8].toNat % 2 = s.m.toNat
      ∧ t = { s with g := t.g, status := statusAfterPrimitive s }
      ∧ exec .wrg t = .next t

/-- 42_read_path.md R78: RDG reads the nine parities into F and M, clears DONE and changes nothing else. -/
def Obligations.RdgFollowsRule : Prop :=
  decode 0x5000#16 = .ok .rdg
  ∧ ∀ s : State, s.Accepting → ∃ t, exec .rdg s = .next t
      ∧ (∀ k : Fin 9, k.val < 8 → frameBit t.f k.val = s.g[k].getLsbD 0)
      ∧ t.m.toNat = s.g[8].toNat % 2
      ∧ t = { s with f := t.f, m := t.m, status := statusAfterPrimitive s }

/-- 44_system.md R90: CLR, with an error latched or not, leaves STATUS = 0x00 and changes nothing else; it is the one
command performed while an error is latched. -/
def Obligations.ClrFollowsRule : Prop :=
  decode 0x8000#16 = .ok .clr
  ∧ (∀ s : State, ∃ t, exec .clr s = .next t ∧ t.status.errf = false ∧ t.status.code = 0 ∧ t.status.done = false
      ∧ t.status.toByte = 0x00#8 ∧ t = { s with status := t.status })
  ∧ ∀ (i : Instr) (s : State), s.status.errf = true → i ≠ .clr → exec i s = .next s

/-- 10_state.md R30, 20_memory.md R41: what TOFR, FRFR, FPAR, WRG and RDG leave unchanged. -/
def Obligations.RegisterCommandsFrame : Prop :=
  ∀ (i : Instr) (s t : State), i.wellFormed = true →
    (i = .tofr ∨ i = .frfr ∨ (∃ a w, i = .fpar a w) ∨ i = .wrg ∨ i = .rdg) → exec i s = .next t →
    SameBytes s t ∧ SameOwn s t ∧ t.pxc = s.pxc ∧ t.gix = s.gix ∧ t.npix = s.npix ∧ t.nch = s.nch ∧ t.mlen = s.mlen
    ∧ (i ≠ .frfr → t.d = s.d) ∧ (i ≠ .tofr → i ≠ .rdg → t.f = s.f) ∧ (i ≠ .rdg → t.m = s.m)
    ∧ (i = .tofr ∨ i = .frfr ∨ i = .rdg → t.g = s.g)
    ∧ (∀ a w, i = .fpar a w → ∀ k : Fin 9, k.val ≠ a.toNat → t.g[k] = s.g[k])
    ∧ t.status.errf = s.status.errf ∧ t.status.code = s.status.code

/-! ### ENC -/

/-- 43_orchestration.md R85: the big-step form of a successful ENC. -/
def Obligations.EncBigStep : Prop :=
  ∀ s : State, s.EncReady → ∃ t, exec .enc s = .next t
    ∧ (∀ i k, i < s.mlen.toNat → k ≤ 8 →
        memRead .out (slotAt s i k) t = forceParity (memRead .car (slotAt s i k) s) (encBit s i k))
    ∧ (∀ o, o < s.npix.toNat * s.nch.toNat → ¬ IsSlotBelow s s.mlen.toNat o →
        memRead .out o t = memRead .car o s)
    ∧ (∀ i j k l, i < s.mlen.toNat → j < s.mlen.toNat → k ≤ 8 → l ≤ 8 → slotAt s i k = slotAt s j l → i = j ∧ k = l)
    ∧ encodeImage (imageOf .car s) (payloadOf s) = .ok (imageOf .out t)

/-- 43_orchestration.md R82, "State after a successful ENC", and its frame: every register, and every byte of memory
outside the image in OUT. -/
def Obligations.EncStateAfter : Prop :=
  ∀ s : State, s.EncReady → ∃ t, exec .enc s = .next t
    ∧ t.pxc.toNat = 3 * s.mlen.toNat ∧ t.gix = s.mlen ∧ t.d = memRead .msg (s.mlen.toNat - 1) s ∧ t.f = t.d ∧ t.m = 1
    ∧ (∀ k : Fin 9, t.g[k] = memRead .out (slotAt s (s.mlen.toNat - 1) k.val) t)
    ∧ t.status = statusAfterSuccess s
    ∧ t.npix = s.npix ∧ t.nch = s.nch ∧ t.mlen = s.mlen ∧ SameOwn s t
    ∧ SameBytesIn .car s t ∧ SameBytesIn .msg s t
    ∧ ∀ o, s.npix.toNat * s.nch.toNat ≤ o → memRead .out o t = memRead .out o s

/-- 60_exceptions.md R92, R95, R96: ENC's errors, their order, and that each changes STATUS alone. -/
def Obligations.EncErrors : Prop :=
  ∀ s : State, s.Accepting →
    (s.mlen.toNat = 0 → exec .enc s = .next { s with status := statusOfError 1 })
    ∧ (s.mlen.toNat ≠ 0 → ¬ (s.ConfigLegal ∧ s.mlen.toNat ≤ s.params.msgBytes) →
        exec .enc s = .next { s with status := statusOfError 5 })
    ∧ (s.mlen.toNat ≠ 0 → s.ConfigLegal → s.mlen.toNat ≤ s.params.msgBytes → s.npix.toNat < 3 * s.mlen.toNat →
        exec .enc s = .next { s with status := statusOfError 2 })

/-! ### Group load and store -/

/-- 20_memory.md R48: LoadGroup and StoreGroup at a group of the image, for either pixel memory; the store touches
channels 0, 1, 2 of the group's three pixels alone. -/
def Obligations.GroupLoadAndStore : Prop :=
  (∀ (s : State) (sp : Space), loadGroup sp s = { s with g := (loadGroup sp s).g }
    ∧ ∀ k : Fin 9, (loadGroup sp s).g[k]
        = memRead sp ((s.pxc.toNat + k.val / 3) * s.nch.toNat + k.val % 3) s)
  ∧ (∀ (s : State) (sp : Space), s.ConfigLegal → sp ≠ .msg → s.pxc.toNat % 3 = 0 → s.pxc.toNat + 3 ≤ s.npix.toNat →
    (∀ k : Fin 9, memRead sp ((s.pxc.toNat + k.val / 3) * s.nch.toNat + k.val % 3) (storeGroup sp s) = s.g[k])
    ∧ (∀ sp' o, (sp' = sp → ∀ p c, s.pxc.toNat ≤ p → p < s.pxc.toNat + 3 → c < 3 → o ≠ p * s.nch.toNat + c) →
        memRead sp' o (storeGroup sp s) = memRead sp' o s)
    ∧ storeGroup sp s = { s with car := (storeGroup sp s).car, out := (storeGroup sp s).out, msg := (storeGroup sp s).msg })
  ∧ (List.range 9).map (slotOffset 4 3) = [12, 13, 14, 16, 17, 18, 20, 21, 22]

/-! ### DEC -/

/-- 43_orchestration.md R86: the big-step form of DEC. -/
def Obligations.DecBigStep : Prop :=
  ∀ s : State, s.params.Ok → s.Accepting → s.ConfigLegal →
    (∀ n, StopGroup s n → (∀ j, j < n → ¬ StopGroup s j) → ∃ t, exec .dec s = .next t
      ∧ t.status = statusAfterSuccess s ∧ t.mlen.toNat = n + 1
      ∧ (∀ i, i ≤ n → (memRead .msg i t).toNat = groupByte s i)
      ∧ decodeImage (imageOf .car s) = .ok (payloadOf t))
    ∧ ((∀ n, ¬ StopGroup s n) → ∃ t, exec .dec s = .next t ∧ t.status = statusOfError 3
      ∧ decodeImage (imageOf .car s) = .error .unterminatedMessage)

/-- 43_orchestration.md R83, "State after a successful DEC", and its frame. -/
def Obligations.DecStateAfterSuccess : Prop :=
  ∀ (s : State) (n : Nat), s.params.Ok → s.Accepting → s.ConfigLegal → StopGroup s n →
    (∀ j, j < n → ¬ StopGroup s j) → ∃ t, exec .dec s = .next t
      ∧ t.pxc.toNat = 3 * (n + 1) ∧ t.gix.toNat = n + 1 ∧ t.mlen = t.gix
      ∧ (∀ k : Fin 9, t.g[k] = memRead .car (slotAt s n k.val) s)
      ∧ t.d = memRead .msg n t ∧ t.f = t.d ∧ t.m = 1 ∧ t.status = statusAfterSuccess s
      ∧ t.npix = s.npix ∧ t.nch = s.nch ∧ SameOwn s t
      ∧ SameBytesIn .car s t ∧ SameBytesIn .out s t
      ∧ ∀ o, n + 1 ≤ o → memRead .msg o t = memRead .msg o s

/-- 43_orchestration.md R83, "State after UnterminatedMessage", and its frame. -/
def Obligations.DecStateAfterFailure : Prop :=
  ∀ s : State, s.params.Ok → s.Accepting → s.ConfigLegal → (∀ n, ¬ StopGroup s n) → ∃ t, exec .dec s = .next t
    ∧ t.status = statusOfError 3 ∧ t.mlen = 0
    ∧ t.gix.toNat = s.npix.toNat / 3 ∧ t.pxc.toNat = 3 * (s.npix.toNat / 3)
    ∧ (∀ i, i < s.npix.toNat / 3 → (memRead .msg i t).toNat = groupByte s i)
    ∧ (∀ o, s.npix.toNat / 3 ≤ o → memRead .msg o t = memRead .msg o s)
    ∧ (1 ≤ s.npix.toNat / 3 →
        (∀ k : Fin 9, t.g[k] = memRead .car (slotAt s (s.npix.toNat / 3 - 1) k.val) s)
        ∧ t.f = t.d ∧ t.d = memRead .msg (s.npix.toNat / 3 - 1) t ∧ t.m = 0)
    ∧ (s.npix.toNat / 3 = 0 → t.g = s.g ∧ t.f = s.f ∧ t.d = s.d ∧ t.m = s.m)
    ∧ t.npix = s.npix ∧ t.nch = s.nch ∧ SameOwn s t ∧ SameBytesIn .car s t ∧ SameBytesIn .out s t

/-- 60_exceptions.md R92, R96: DEC with an illegal configuration raises BadConfig and changes STATUS alone. That MLEN keeps
its value is the model's choice between R83, R93, R96 and R102 (notes/assumptions/14.md). -/
def Obligations.DecBadConfig : Prop :=
  ∀ s : State, s.Accepting → ¬ s.ConfigLegal → exec .dec s = .next { s with status := statusOfError 5 }

/-! ### All commands -/

/-- 10_state.md R30: state a command does not name is unchanged by it. ENC names OUT below NPIX * NCH, DEC the cells of MSG
for the groups it read, FPAR a the one register G[a]. -/
def Obligations.OnlyNamedStateChanges : Prop :=
  ∀ (i : Instr) (s t : State), exec i s = .next t →
    t.npix = s.npix ∧ t.nch = s.nch ∧ t.params = s.params
    ∧ SameBytesIn .car s t
    ∧ (i ≠ .dec → t.mlen = s.mlen ∧ SameBytesIn .msg s t)
    ∧ (i = .dec → ∀ o, t.gix.toNat ≤ o → memRead .msg o t = memRead .msg o s)
    ∧ (i ≠ .enc → SameBytesIn .out s t)
    ∧ (i = .enc → ∀ o, s.npix.toNat * s.nch.toNat ≤ o → memRead .out o t = memRead .out o s)
    ∧ (i ≠ .enc → i ≠ .dec → t.pxc = s.pxc ∧ t.gix = s.gix)
    ∧ (i = .nop → t = s)
    ∧ (i = .tofr → t = { s with f := t.f, status := t.status })
    ∧ (i = .frfr → t = { s with d := t.d, status := t.status })
    ∧ (∀ a w, i = .fpar a w → t = { s with g := t.g, status := t.status }
        ∧ ∀ k : Fin 9, k.val ≠ a.toNat → t.g[k] = s.g[k])
    ∧ (i = .wrg → t = { s with g := t.g, status := t.status })
    ∧ (i = .rdg → t = { s with f := t.f, m := t.m, status := t.status })
    ∧ (i = .clr → t = { s with status := t.status })

/-- 60_exceptions.md R92, 70_reset_and_hazards.md R113: every command ends, in every state, in a next state. -/
def Obligations.EveryCommandEnds : Prop :=
  ∀ (i : Instr) (s : State), ∃ t, exec i s = .next t

/-- 44_system.md R88: what a write of `x` to CMD does, case by case: CLR, any other word while an error is latched, and
with none latched an illegal word, NOP, and every other command, which starts from DONE = 0. -/
def Obligations.CommandAcceptance : Prop :=
  (∀ h c : BitVec 16, commandWord (h ++ c) = c)
  ∧ ∀ (x : Word) (s : State),
      (decode (commandWord x) = .ok .clr → issue x s = exec .clr s)
      ∧ (s.status.errf = true → decode (commandWord x) ≠ .ok .clr → issue x s = .next s)
      ∧ (∀ e, s.Accepting → decode (commandWord x) = .error e → issue x s = .next { s with status := statusOfError 4 })
      ∧ (s.Accepting → decode (commandWord x) = .ok .nop → issue x s = .next s)
      ∧ (∀ i, s.Accepting → i ≠ .nop → decode (commandWord x) = .ok i →
          issue x s = exec i { s with status := { s.status with done := false } })

/-- 60_exceptions.md R91, R94: error entry records the code in STATUS and changes nothing else. -/
def Obligations.ErrorEntry : Prop :=
  ∀ s : State,
    (∀ k : ErrorKind, (raise k s).status.errf = true ∧ (raise k s).status.code = k.code
      ∧ (raise k s).status.done = false ∧ (raise k s).status.busy = false
      ∧ raise k s = { s with status := (raise k s).status })
    ∧ (raise .emptyPayload s).status.toByte = 0x14#8 ∧ (raise .carrierTooSmall s).status.toByte = 0x24#8
    ∧ (raise .unterminatedMessage s).status.toByte = 0x34#8 ∧ (raise .illegalCommand s).status.toByte = 0x44#8
    ∧ (raise .badConfig s).status.toByte = 0x54#8

/-- 10_state.md R21: the layout of STATUS. -/
def Obligations.StatusLayout : Prop :=
  ∀ st : Status, st.toByte.getLsbD 0 = st.busy ∧ st.toByte.getLsbD 1 = st.done ∧ st.toByte.getLsbD 2 = st.errf
    ∧ st.toByte.getLsbD 3 = false ∧ st.toByte.toNat / 16 = st.code.toNat

/-! ### Steps -/

/-- 44_system.md R88: a step on a write of a legal word to CMD runs the decoded command on the state with that write
taken off the host's pending actions. The pending list is the model's choice (notes/assumptions/1.md). -/
def Obligations.StepRunsDecodedCommand : Prop :=
  (∀ (s : State) (x : Word) (rest : List HostAction) (i : Instr), s.pending = .wreg 0 x :: rest →
    s.status.busy = false → decode (commandWord x) = .ok i → step s = exec i { s with pending := rest })
  ∧ ∀ (s : State) (nbits w : Nat) (i : Instr), s.status.busy = false → decodeTableWord nbits w = some i →
    step (s.withFetchWord nbits w) = exec i s

/-- 30_encoding.md R57, 44_system.md R88: a step on a write of an illegal word to CMD, the pending list being the model's
choice (notes/assumptions/1.md). -/
def Obligations.StepOnIllegalWord : Prop :=
  ∀ (s : State) (x : Word) (rest : List HostAction), s.pending = .wreg 0 x :: rest → s.status.busy = false →
    ¬ LegalWord (commandWord x) →
    (s.Accepting → step s = .next { s with pending := rest, status := statusOfError 4 })
    ∧ (¬ s.Accepting → step s = .next { s with pending := rest })

/-- 10_state.md R19, table of R11: a host write to each register number but CMD's, taken from the pending list
(notes/assumptions/1.md). -/
def Obligations.HostRegisterWrites : Prop :=
  ∀ (s : State) (n : Nat) (v : Word) (rest : List HostAction), s.pending = .wreg n v :: rest → s.status.busy = false →
    (n = 0x02 → step s = .next { s with pending := rest, npix := v })
    ∧ (n = 0x03 → step s = .next { s with pending := rest, nch := BitVec.ofNat 8 v.toNat })
    ∧ (n = 0x04 → step s = .next { s with pending := rest, mlen := v })
    ∧ (n = 0x07 → step s = .next { s with pending := rest, d := BitVec.ofNat 8 v.toNat })
    ∧ (n = 0x08 → step s = .next { s with pending := rest, f := BitVec.ofNat 8 v.toNat })
    ∧ (n = 0x09 → step s = .next { s with pending := rest, m := BitVec.ofNat 1 v.toNat })
    ∧ (∀ k : Fin 9, n = 0x10 + k.val →
        step s = .next { s with pending := rest, g := s.g.set k.val (BitVec.ofNat 8 v.toNat) })
    ∧ (n = 0x01 ∨ n = 0x05 ∨ n = 0x06 ∨ (0x0A ≤ n ∧ n ≤ 0x0F) ∨ 0x19 ≤ n → step s = .next { s with pending := rest })

/-- 10_state.md R19, R20, table of R11: a host read of each register number returns its value zero-extended, and 0 for
CMD and for a number that names no register; nothing but the reply changes. The reply and the pending list are the
model's choice (notes/assumptions/1.md, 4.md). -/
def Obligations.HostRegisterReads : Prop :=
  ∀ (s : State) (n : Nat) (rest : List HostAction), s.pending = .rreg n :: rest → s.status.busy = false →
    ∃ r : Word, step s = .next { s with pending := rest, reply := some r }
    ∧ (n = 0x01 → r.toNat = s.status.toByte.toNat) ∧ (n = 0x02 → r = s.npix) ∧ (n = 0x03 → r.toNat = s.nch.toNat)
    ∧ (n = 0x04 → r = s.mlen) ∧ (n = 0x05 → r = s.pxc) ∧ (n = 0x06 → r = s.gix) ∧ (n = 0x07 → r.toNat = s.d.toNat)
    ∧ (n = 0x08 → r.toNat = s.f.toNat) ∧ (n = 0x09 → r.toNat = s.m.toNat)
    ∧ (∀ k : Fin 9, n = 0x10 + k.val → r.toNat = s.g[k].toNat)
    ∧ (n = 0x00 ∨ (0x0A ≤ n ∧ n ≤ 0x0F) ∨ 0x19 ≤ n → r = 0)

/-- 20_memory.md R32, R40: host reads and writes of memory, inside and beyond the capacity. The reply and the pending
list are the model's choice (notes/assumptions/1.md, 4.md). -/
def Obligations.HostMemoryAccesses : Prop :=
  (∀ (s : State) (sp : Space) (o : Nat) (v : Byte) (rest : List HostAction), s.pending = .wmem sp o v :: rest →
    s.status.busy = false →
    (o < s.cap sp → ∃ t, step s = .next t ∧ memRead sp o t = v
      ∧ (∀ sp' o', ¬ (sp' = sp ∧ o' = o) → memRead sp' o' t = memRead sp' o' s)
      ∧ t = { s with pending := rest, car := t.car, out := t.out, msg := t.msg })
    ∧ (s.cap sp ≤ o → step s = .next { s with pending := rest }))
  ∧ ∀ (s : State) (sp : Space) (o : Nat) (rest : List HostAction), s.pending = .rmem sp o :: rest →
    s.status.busy = false → ∃ r : Word, step s = .next { s with pending := rest, reply := some r }
      ∧ r.toNat = (memRead sp o s).toNat ∧ (s.cap sp ≤ o → r = 0)

/-- 70_reset_and_hazards.md R104: with no action pending the block waits. The pending list is the model's choice
(notes/assumptions/1.md). -/
def Obligations.IdleStepChangesNothing : Prop :=
  ∀ s : State, s.pending = [] → step s = .next s

/-- 70_reset_and_hazards.md R108: while BUSY = 1 the host may read STATUS and assert reset, and the model gives no
meaning to anything else it does (notes/assumptions/6.md). -/
def Obligations.HostAccessWhileBusy : Prop :=
  ∀ (s : State) (a : HostAction) (rest : List HostAction), s.pending = a :: rest → s.status.busy = true →
    (a ≠ .rreg 1 → a ≠ .reset → step s = .refused .hostAccessWhileBusy)
    ∧ (a = .rreg 1 → step s = .next { s with pending := rest, reply := some (s.status.toByte.setWidth 32) })

/-! ### Reset -/

/-- 10_state.md R27: what the registers hold after reset. -/
def Obligations.ResetValues : Prop := RegistersReset State.reset

/-- 70_reset_and_hazards.md R104, R105: the reset input, at any time, puts every register at its reset value; with no
command executing each byte of each memory is then a free value of the byte it held. That the memories after reset are
arbitrary is R105; the form of the free value is the model's choice (notes/assumptions/7.md). -/
def Obligations.ResetActionResetsRegisters : Prop :=
  ∀ (s : State) (rest : List HostAction), s.pending = .reset :: rest →
    ∃ t, step s = .next t ∧ RegistersReset t ∧ t.params = s.params ∧ t.pending = rest ∧ t.reply = s.reply
      ∧ (s.status.busy = false → ∀ sp, ResetBytesIn sp (fun _ => False) s t)

/-- 70_reset_and_hazards.md R104, R105: a command cut short by reset leaves the registers at their reset values, and a byte
it could not have written is what that reset makes of the byte held before, a free value (notes/assumptions/7.md); CAR it
never writes. Which cells it could have written when it is dropped, illegal or fails its checks is DEDUCED
(notes/assumptions/5.md). -/
def Obligations.ResetCutsCommandShort : Prop :=
  ∀ (s : State) (x : Word) (rest : List HostAction), s.pending = .resetDuring x :: rest → s.status.busy = false →
    ∃ t, step s = .next t ∧ RegistersReset t ∧ t.params = s.params ∧ t.pending = rest ∧ t.reply = s.reply
      ∧ ResetBytesIn .car (fun _ => False) s t
      ∧ ResetBytesIn .out
          (fun o => decode (commandWord x) = .ok .enc ∧ s.EncReady ∧ o < s.npix.toNat * s.nch.toNat) s t
      ∧ ResetBytesIn .msg
          (fun o => decode (commandWord x) = .ok .dec ∧ s.Accepting ∧ s.ConfigLegal ∧ o < s.npix.toNat / 3) s t

/-- 70_reset_and_hazards.md R104, last sentence: ENC and DEC straight after reset. -/
def Obligations.CommandsStraightAfterReset : Prop :=
  ∀ p : Params, p.Ok →
    exec .enc { State.reset with params := p } = .next { State.reset with params := p, status := statusOfError 1 }
    ∧ exec .dec { State.reset with params := p } = .next { State.reset with params := p, status := statusOfError 3 }

/-! ### Invariants and whole-machine rules -/

/-- 10_state.md R16, R17, R21, R28: every step keeps the machine's invariant. -/
def Obligations.StepKeepsInvariant : Prop :=
  ∀ s t : State, s.Inv → step s = .next t → t.Inv

/-- 10_state.md R27: the reset state has the invariant, whatever legal parameters the implementation has. -/
def Obligations.ResetHasInvariant : Prop :=
  State.reset.Inv ∧ ∀ p : Params, p.Ok → ({ State.reset with params := p } : State).Inv

/-- 60_exceptions.md R97, R98: a latched error is left only by CLR or reset, and no later command overwrites its code. -/
def Obligations.LatchLeftOnlyByClrOrReset : Prop :=
  ∀ s t : State, s.status.errf = true → step s = .next t →
    (t.status.errf = true ∧ t.status.code = s.status.code)
    ∨ ∃ a rest, s.pending = a :: rest
        ∧ ((∃ x, a = .wreg 0 x ∧ decode (commandWord x) = .ok .clr) ∨ a = .reset ∨ ∃ x, a = .resetDuring x)

/-- 10_state.md R11, 20_memory.md R44 (d), R46, 70_reset_and_hazards.md R111: ENC and DEC are functions of CAR, MSG, NPIX,
NCH, MLEN alone: nothing else in the state, the working registers, PXC, GIX and OUT among it, affects their result. -/
def Obligations.ResultsDependOnInputsAlone : Prop :=
  ∀ s s' : State, s.params.Ok → s'.params = s.params → s.Accepting → s'.Accepting → s'.npix = s.npix → s'.nch = s.nch →
    SameBytesIn .car s s' →
    (s'.mlen = s.mlen → SameBytesIn .msg s s' → s.EncReady →
      ∃ t t', exec .enc s = .next t ∧ exec .enc s' = .next t'
        ∧ (∀ o, o < s.npix.toNat * s.nch.toNat → memRead .out o t' = memRead .out o t)
        ∧ t'.g = t.g ∧ t'.f = t.f ∧ t'.m = t.m ∧ t'.d = t.d ∧ t'.pxc = t.pxc ∧ t'.gix = t.gix)
    ∧ (s.ConfigLegal → ∃ t t', exec .dec s = .next t ∧ exec .dec s' = .next t'
        ∧ t'.status.done = t.status.done ∧ t'.status.errf = t.status.errf ∧ t'.mlen = t.mlen
        ∧ t'.pxc = t.pxc ∧ t'.gix = t.gix
        ∧ ∀ i, i < t.gix.toNat → memRead .msg i t' = memRead .msg i t)

/-- 42_read_path.md R79, 70_reset_and_hazards.md R109, R110: DEC's result depends on the slots of the groups up to the
stopping group alone: later groups, channels 3 and above and the number of pixels beyond do not affect it. -/
def Obligations.DecIgnoresWhatItDoesNotRead : Prop :=
  ∀ (s s' : State) (n : Nat), s.params.Ok → s'.params.Ok → s.Accepting → s'.Accepting → s.ConfigLegal → s'.ConfigLegal →
    StopGroup s n → (∀ j, j < n → ¬ StopGroup s j) → 3 * n + 3 ≤ s'.npix.toNat →
    (∀ i k, i ≤ n → k < 9 → memRead .car (slotAt s' i k) s' = memRead .car (slotAt s i k) s) →
    ∃ t t', exec .dec s = .next t ∧ exec .dec s' = .next t' ∧ t'.status.done = true ∧ t.status.done = true
      ∧ t'.mlen = t.mlen ∧ ∀ i, i ≤ n → memRead .msg i t' = memRead .msg i t

/-- 43_orchestration.md R84: decode undoes encode, on the contract functions, and ENC; COPYOUT; DEC gives the payload
back. -/
def Obligations.RoundTrip : Prop :=
  (∀ (im : Image) (p : List Byte), im.ok = true → p ≠ [] → 3 * p.length ≤ im.npix →
    ∃ im', encodeImage im p = .ok im' ∧ decodeImage im' = .ok p)
  ∧ ∀ s : State, s.EncReady → ∃ t u, exec .enc s = .next t ∧ exec .dec (copyOut t) = .next u
      ∧ u.status.done = true ∧ u.mlen = s.mlen
      ∧ ∀ i, i < s.mlen.toNat → memRead .msg i u = memRead .msg i s

/-- 43_orchestration.md R87 (a) to (d): the carrier-size check with its repetition after CLR, stop-bit placement, the
empty payload, and truncation by one group. -/
def Obligations.TestableProperties : Prop :=
  (∀ s : State, s.Accepting → s.ConfigLegal → 1 ≤ s.mlen.toNat → s.mlen.toNat ≤ s.params.msgBytes →
    3 * s.npix.toNat < 9 * s.mlen.toNat → ∃ t u v, exec .enc s = .next t ∧ exec .clr t = .next u ∧ exec .enc u = .next v
      ∧ t.status.code = 2 ∧ SameBytes s t ∧ v.status = t.status ∧ SameBytes s v)
  ∧ (∀ s : State, s.EncReady → ∃ t, exec .enc s = .next t
      ∧ (∀ i, i < s.mlen.toNat - 1 → (memRead .out ((3 * i + 2) * s.nch.toNat + 2) t).toNat % 2 = 0)
      ∧ (memRead .out ((3 * (s.mlen.toNat - 1) + 2) * s.nch.toNat + 2) t).toNat % 2 = 1)
  ∧ (∀ s : State, s.Accepting → s.mlen = 0 → ∃ t, exec .enc s = .next t ∧ t.status.code = 1)
  ∧ (∀ (s : State) (np : Word), s.EncReady → 2 ≤ s.mlen.toNat → np.toNat / 3 = s.mlen.toNat - 1 →
      ∃ t u, exec .enc s = .next t ∧ exec .dec { copyOut t with npix := np } = .next u ∧ u.status = statusOfError 3)

/-- 20_memory.md R35, R43: the slots of a group of the image lie inside it, the last at `(3i + 2) * NCH + 2`, and slots of
different groups and of one group are different cells. -/
def Obligations.SlotsDistinctInsideImage : Prop :=
  (∀ nch npix i k : Nat, 3 ≤ nch → 3 * i + 3 ≤ npix → k ≤ 8 →
    slotOffset nch (3 * i) k ≤ (3 * i + 2) * nch + 2 ∧ (3 * i + 2) * nch + 2 < (3 * i + 3) * nch
    ∧ (3 * i + 3) * nch ≤ npix * nch)
  ∧ ∀ nch i j k l : Nat, 3 ≤ nch → k ≤ 8 → l ≤ 8 → slotOffset nch (3 * i) k = slotOffset nch (3 * j) l → i = j ∧ k = l
end

