-- ==== Sys2Proof/Laws/State.lean ====
section
/-! SUPPORT. What each update of State does to each field: one lemma per field per update, true by rfl, so that no
later proof unfolds a record update. -/

namespace Sys2Proof.Machine

@[simp] theorem Status.accepted_busy (st : Status) : st.accepted.busy = true := rfl
@[simp] theorem Status.accepted_done (st : Status) : st.accepted.done = false := rfl
@[simp] theorem Status.accepted_errf (st : Status) : st.accepted.errf = st.errf := rfl
@[simp] theorem Status.accepted_code (st : Status) : st.accepted.code = st.code := rfl

@[simp] theorem Status.ended_busy (st : Status) : st.ended.busy = false := rfl
@[simp] theorem Status.ended_done (st : Status) : st.ended.done = st.done := rfl
@[simp] theorem Status.ended_errf (st : Status) : st.ended.errf = st.errf := rfl
@[simp] theorem Status.ended_code (st : Status) : st.ended.code = st.code := rfl

@[simp] theorem Status.succeeded_busy (st : Status) : st.succeeded.busy = st.busy := rfl
@[simp] theorem Status.succeeded_done (st : Status) : st.succeeded.done = true := rfl
@[simp] theorem Status.succeeded_errf (st : Status) : st.succeeded.errf = st.errf := rfl
@[simp] theorem Status.succeeded_code (st : Status) : st.succeeded.code = st.code := rfl

@[simp] theorem Status.cleared_busy (st : Status) : st.cleared.busy = st.busy := rfl
@[simp] theorem Status.cleared_done (st : Status) : st.cleared.done = false := rfl
@[simp] theorem Status.cleared_errf (st : Status) : st.cleared.errf = false := rfl
@[simp] theorem Status.cleared_code (st : Status) : st.cleared.code = 0 := rfl

@[simp] theorem Status.raised_busy (k : ErrorKind) : (Status.raised k).busy = false := rfl
@[simp] theorem Status.raised_done (k : ErrorKind) : (Status.raised k).done = false := rfl
@[simp] theorem Status.raised_errf (k : ErrorKind) : (Status.raised k).errf = true := rfl
@[simp] theorem Status.raised_code (k : ErrorKind) : (Status.raised k).code = k.code := rfl

@[simp] theorem beginCommand_g (s : State) : (beginCommand s).g = s.g := rfl
@[simp] theorem beginCommand_f (s : State) : (beginCommand s).f = s.f := rfl
@[simp] theorem beginCommand_m (s : State) : (beginCommand s).m = s.m := rfl
@[simp] theorem beginCommand_d (s : State) : (beginCommand s).d = s.d := rfl
@[simp] theorem beginCommand_pxc (s : State) : (beginCommand s).pxc = s.pxc := rfl
@[simp] theorem beginCommand_gix (s : State) : (beginCommand s).gix = s.gix := rfl
@[simp] theorem beginCommand_npix (s : State) : (beginCommand s).npix = s.npix := rfl
@[simp] theorem beginCommand_nch (s : State) : (beginCommand s).nch = s.nch := rfl
@[simp] theorem beginCommand_mlen (s : State) : (beginCommand s).mlen = s.mlen := rfl
@[simp] theorem beginCommand_status (s : State) : (beginCommand s).status = s.status.accepted := rfl
@[simp] theorem beginCommand_car (s : State) : (beginCommand s).car = s.car := rfl
@[simp] theorem beginCommand_out (s : State) : (beginCommand s).out = s.out := rfl
@[simp] theorem beginCommand_msg (s : State) : (beginCommand s).msg = s.msg := rfl
@[simp] theorem beginCommand_params (s : State) : (beginCommand s).params = s.params := rfl
@[simp] theorem beginCommand_pending (s : State) : (beginCommand s).pending = s.pending := rfl
@[simp] theorem beginCommand_reply (s : State) : (beginCommand s).reply = s.reply := rfl
@[simp] theorem beginCommand_draws (s : State) : (beginCommand s).draws = s.draws := rfl

@[simp] theorem endCommand_g (s : State) : (endCommand s).g = s.g := rfl
@[simp] theorem endCommand_f (s : State) : (endCommand s).f = s.f := rfl
@[simp] theorem endCommand_m (s : State) : (endCommand s).m = s.m := rfl
@[simp] theorem endCommand_d (s : State) : (endCommand s).d = s.d := rfl
@[simp] theorem endCommand_pxc (s : State) : (endCommand s).pxc = s.pxc := rfl
@[simp] theorem endCommand_gix (s : State) : (endCommand s).gix = s.gix := rfl
@[simp] theorem endCommand_npix (s : State) : (endCommand s).npix = s.npix := rfl
@[simp] theorem endCommand_nch (s : State) : (endCommand s).nch = s.nch := rfl
@[simp] theorem endCommand_mlen (s : State) : (endCommand s).mlen = s.mlen := rfl
@[simp] theorem endCommand_status (s : State) : (endCommand s).status = s.status.ended := rfl
@[simp] theorem endCommand_car (s : State) : (endCommand s).car = s.car := rfl
@[simp] theorem endCommand_out (s : State) : (endCommand s).out = s.out := rfl
@[simp] theorem endCommand_msg (s : State) : (endCommand s).msg = s.msg := rfl
@[simp] theorem endCommand_params (s : State) : (endCommand s).params = s.params := rfl
@[simp] theorem endCommand_pending (s : State) : (endCommand s).pending = s.pending := rfl
@[simp] theorem endCommand_reply (s : State) : (endCommand s).reply = s.reply := rfl
@[simp] theorem endCommand_draws (s : State) : (endCommand s).draws = s.draws := rfl

@[simp] theorem succeed_g (s : State) : (succeed s).g = s.g := rfl
@[simp] theorem succeed_f (s : State) : (succeed s).f = s.f := rfl
@[simp] theorem succeed_m (s : State) : (succeed s).m = s.m := rfl
@[simp] theorem succeed_d (s : State) : (succeed s).d = s.d := rfl
@[simp] theorem succeed_pxc (s : State) : (succeed s).pxc = s.pxc := rfl
@[simp] theorem succeed_gix (s : State) : (succeed s).gix = s.gix := rfl
@[simp] theorem succeed_npix (s : State) : (succeed s).npix = s.npix := rfl
@[simp] theorem succeed_nch (s : State) : (succeed s).nch = s.nch := rfl
@[simp] theorem succeed_mlen (s : State) : (succeed s).mlen = s.mlen := rfl
@[simp] theorem succeed_status (s : State) : (succeed s).status = s.status.succeeded := rfl
@[simp] theorem succeed_car (s : State) : (succeed s).car = s.car := rfl
@[simp] theorem succeed_out (s : State) : (succeed s).out = s.out := rfl
@[simp] theorem succeed_msg (s : State) : (succeed s).msg = s.msg := rfl
@[simp] theorem succeed_params (s : State) : (succeed s).params = s.params := rfl
@[simp] theorem succeed_pending (s : State) : (succeed s).pending = s.pending := rfl
@[simp] theorem succeed_reply (s : State) : (succeed s).reply = s.reply := rfl
@[simp] theorem succeed_draws (s : State) : (succeed s).draws = s.draws := rfl

@[simp] theorem clearError_g (s : State) : (clearError s).g = s.g := rfl
@[simp] theorem clearError_f (s : State) : (clearError s).f = s.f := rfl
@[simp] theorem clearError_m (s : State) : (clearError s).m = s.m := rfl
@[simp] theorem clearError_d (s : State) : (clearError s).d = s.d := rfl
@[simp] theorem clearError_pxc (s : State) : (clearError s).pxc = s.pxc := rfl
@[simp] theorem clearError_gix (s : State) : (clearError s).gix = s.gix := rfl
@[simp] theorem clearError_npix (s : State) : (clearError s).npix = s.npix := rfl
@[simp] theorem clearError_nch (s : State) : (clearError s).nch = s.nch := rfl
@[simp] theorem clearError_mlen (s : State) : (clearError s).mlen = s.mlen := rfl
@[simp] theorem clearError_status (s : State) : (clearError s).status = s.status.cleared := rfl
@[simp] theorem clearError_car (s : State) : (clearError s).car = s.car := rfl
@[simp] theorem clearError_out (s : State) : (clearError s).out = s.out := rfl
@[simp] theorem clearError_msg (s : State) : (clearError s).msg = s.msg := rfl
@[simp] theorem clearError_params (s : State) : (clearError s).params = s.params := rfl
@[simp] theorem clearError_pending (s : State) : (clearError s).pending = s.pending := rfl
@[simp] theorem clearError_reply (s : State) : (clearError s).reply = s.reply := rfl
@[simp] theorem clearError_draws (s : State) : (clearError s).draws = s.draws := rfl

@[simp] theorem raise_g (k : ErrorKind) (s : State) : (raise k s).g = s.g := rfl
@[simp] theorem raise_f (k : ErrorKind) (s : State) : (raise k s).f = s.f := rfl
@[simp] theorem raise_m (k : ErrorKind) (s : State) : (raise k s).m = s.m := rfl
@[simp] theorem raise_d (k : ErrorKind) (s : State) : (raise k s).d = s.d := rfl
@[simp] theorem raise_pxc (k : ErrorKind) (s : State) : (raise k s).pxc = s.pxc := rfl
@[simp] theorem raise_gix (k : ErrorKind) (s : State) : (raise k s).gix = s.gix := rfl
@[simp] theorem raise_npix (k : ErrorKind) (s : State) : (raise k s).npix = s.npix := rfl
@[simp] theorem raise_nch (k : ErrorKind) (s : State) : (raise k s).nch = s.nch := rfl
@[simp] theorem raise_mlen (k : ErrorKind) (s : State) : (raise k s).mlen = s.mlen := rfl
@[simp] theorem raise_status (k : ErrorKind) (s : State) : (raise k s).status = Status.raised k := rfl
@[simp] theorem raise_car (k : ErrorKind) (s : State) : (raise k s).car = s.car := rfl
@[simp] theorem raise_out (k : ErrorKind) (s : State) : (raise k s).out = s.out := rfl
@[simp] theorem raise_msg (k : ErrorKind) (s : State) : (raise k s).msg = s.msg := rfl
@[simp] theorem raise_params (k : ErrorKind) (s : State) : (raise k s).params = s.params := rfl
@[simp] theorem raise_pending (k : ErrorKind) (s : State) : (raise k s).pending = s.pending := rfl
@[simp] theorem raise_reply (k : ErrorKind) (s : State) : (raise k s).reply = s.reply := rfl
@[simp] theorem raise_draws (k : ErrorKind) (s : State) : (raise k s).draws = s.draws := rfl

@[simp] theorem advance_g (s : State) : (advance s).g = s.g := rfl
@[simp] theorem advance_f (s : State) : (advance s).f = s.f := rfl
@[simp] theorem advance_m (s : State) : (advance s).m = s.m := rfl
@[simp] theorem advance_d (s : State) : (advance s).d = s.d := rfl
@[simp] theorem advance_pxc (s : State) : (advance s).pxc = s.pxc + 3 := rfl
@[simp] theorem advance_gix (s : State) : (advance s).gix = s.gix + 1 := rfl
@[simp] theorem advance_npix (s : State) : (advance s).npix = s.npix := rfl
@[simp] theorem advance_nch (s : State) : (advance s).nch = s.nch := rfl
@[simp] theorem advance_mlen (s : State) : (advance s).mlen = s.mlen := rfl
@[simp] theorem advance_status (s : State) : (advance s).status = s.status := rfl
@[simp] theorem advance_car (s : State) : (advance s).car = s.car := rfl
@[simp] theorem advance_out (s : State) : (advance s).out = s.out := rfl
@[simp] theorem advance_msg (s : State) : (advance s).msg = s.msg := rfl
@[simp] theorem advance_params (s : State) : (advance s).params = s.params := rfl
@[simp] theorem advance_pending (s : State) : (advance s).pending = s.pending := rfl
@[simp] theorem advance_reply (s : State) : (advance s).reply = s.reply := rfl
@[simp] theorem advance_draws (s : State) : (advance s).draws = s.draws := rfl

@[simp] theorem restartScan_g (s : State) : (restartScan s).g = s.g := rfl
@[simp] theorem restartScan_f (s : State) : (restartScan s).f = s.f := rfl
@[simp] theorem restartScan_m (s : State) : (restartScan s).m = s.m := rfl
@[simp] theorem restartScan_d (s : State) : (restartScan s).d = s.d := rfl
@[simp] theorem restartScan_pxc (s : State) : (restartScan s).pxc = 0 := rfl
@[simp] theorem restartScan_gix (s : State) : (restartScan s).gix = 0 := rfl
@[simp] theorem restartScan_npix (s : State) : (restartScan s).npix = s.npix := rfl
@[simp] theorem restartScan_nch (s : State) : (restartScan s).nch = s.nch := rfl
@[simp] theorem restartScan_mlen (s : State) : (restartScan s).mlen = s.mlen := rfl
@[simp] theorem restartScan_status (s : State) : (restartScan s).status = s.status := rfl
@[simp] theorem restartScan_car (s : State) : (restartScan s).car = s.car := rfl
@[simp] theorem restartScan_out (s : State) : (restartScan s).out = s.out := rfl
@[simp] theorem restartScan_msg (s : State) : (restartScan s).msg = s.msg := rfl
@[simp] theorem restartScan_params (s : State) : (restartScan s).params = s.params := rfl
@[simp] theorem restartScan_pending (s : State) : (restartScan s).pending = s.pending := rfl
@[simp] theorem restartScan_reply (s : State) : (restartScan s).reply = s.reply := rfl
@[simp] theorem restartScan_draws (s : State) : (restartScan s).draws = s.draws := rfl

@[simp] theorem loadGroup_g (sp : Space) (s : State) :
    (loadGroup sp s).g = Vector.ofFn fun (k : Fin 9) => memRead sp (slotOffset s.nch.toNat s.pxc.toNat k.val) s := rfl
@[simp] theorem loadGroup_f (sp : Space) (s : State) : (loadGroup sp s).f = s.f := rfl
@[simp] theorem loadGroup_m (sp : Space) (s : State) : (loadGroup sp s).m = s.m := rfl
@[simp] theorem loadGroup_d (sp : Space) (s : State) : (loadGroup sp s).d = s.d := rfl
@[simp] theorem loadGroup_pxc (sp : Space) (s : State) : (loadGroup sp s).pxc = s.pxc := rfl
@[simp] theorem loadGroup_gix (sp : Space) (s : State) : (loadGroup sp s).gix = s.gix := rfl
@[simp] theorem loadGroup_npix (sp : Space) (s : State) : (loadGroup sp s).npix = s.npix := rfl
@[simp] theorem loadGroup_nch (sp : Space) (s : State) : (loadGroup sp s).nch = s.nch := rfl
@[simp] theorem loadGroup_mlen (sp : Space) (s : State) : (loadGroup sp s).mlen = s.mlen := rfl
@[simp] theorem loadGroup_status (sp : Space) (s : State) : (loadGroup sp s).status = s.status := rfl
@[simp] theorem loadGroup_car (sp : Space) (s : State) : (loadGroup sp s).car = s.car := rfl
@[simp] theorem loadGroup_out (sp : Space) (s : State) : (loadGroup sp s).out = s.out := rfl
@[simp] theorem loadGroup_msg (sp : Space) (s : State) : (loadGroup sp s).msg = s.msg := rfl
@[simp] theorem loadGroup_params (sp : Space) (s : State) : (loadGroup sp s).params = s.params := rfl
@[simp] theorem loadGroup_pending (sp : Space) (s : State) : (loadGroup sp s).pending = s.pending := rfl
@[simp] theorem loadGroup_reply (sp : Space) (s : State) : (loadGroup sp s).reply = s.reply := rfl
@[simp] theorem loadGroup_draws (sp : Space) (s : State) : (loadGroup sp s).draws = s.draws := rfl

@[simp] theorem resetRegisters_g (s : State) : (resetRegisters s).g = #v[0, 0, 0, 0, 0, 0, 0, 0, 0] := rfl
@[simp] theorem resetRegisters_f (s : State) : (resetRegisters s).f = 0 := rfl
@[simp] theorem resetRegisters_m (s : State) : (resetRegisters s).m = 0 := rfl
@[simp] theorem resetRegisters_d (s : State) : (resetRegisters s).d = 0 := rfl
@[simp] theorem resetRegisters_pxc (s : State) : (resetRegisters s).pxc = 0 := rfl
@[simp] theorem resetRegisters_gix (s : State) : (resetRegisters s).gix = 0 := rfl
@[simp] theorem resetRegisters_npix (s : State) : (resetRegisters s).npix = 0 := rfl
@[simp] theorem resetRegisters_nch (s : State) : (resetRegisters s).nch = 3 := rfl
@[simp] theorem resetRegisters_mlen (s : State) : (resetRegisters s).mlen = 0 := rfl
@[simp] theorem resetRegisters_status (s : State) :
    (resetRegisters s).status = { busy := false, done := false, errf := false, code := 0 } := rfl
@[simp] theorem resetRegisters_car (s : State) : (resetRegisters s).car = s.car := rfl
@[simp] theorem resetRegisters_out (s : State) : (resetRegisters s).out = s.out := rfl
@[simp] theorem resetRegisters_msg (s : State) : (resetRegisters s).msg = s.msg := rfl
@[simp] theorem resetRegisters_params (s : State) : (resetRegisters s).params = s.params := rfl
@[simp] theorem resetRegisters_pending (s : State) : (resetRegisters s).pending = s.pending := rfl
@[simp] theorem resetRegisters_reply (s : State) : (resetRegisters s).reply = s.reply := rfl
@[simp] theorem resetRegisters_draws (s : State) : (resetRegisters s).draws = s.draws := rfl

@[simp] theorem applyTofr_g (s : State) : (applyTofr s).g = s.g := rfl
@[simp] theorem applyTofr_f (s : State) : (applyTofr s).f = toFrame s.d := rfl
@[simp] theorem applyTofr_m (s : State) : (applyTofr s).m = s.m := rfl
@[simp] theorem applyTofr_d (s : State) : (applyTofr s).d = s.d := rfl
@[simp] theorem applyTofr_pxc (s : State) : (applyTofr s).pxc = s.pxc := rfl
@[simp] theorem applyTofr_gix (s : State) : (applyTofr s).gix = s.gix := rfl
@[simp] theorem applyTofr_npix (s : State) : (applyTofr s).npix = s.npix := rfl
@[simp] theorem applyTofr_nch (s : State) : (applyTofr s).nch = s.nch := rfl
@[simp] theorem applyTofr_mlen (s : State) : (applyTofr s).mlen = s.mlen := rfl
@[simp] theorem applyTofr_status (s : State) : (applyTofr s).status = s.status := rfl
@[simp] theorem applyTofr_car (s : State) : (applyTofr s).car = s.car := rfl
@[simp] theorem applyTofr_out (s : State) : (applyTofr s).out = s.out := rfl
@[simp] theorem applyTofr_msg (s : State) : (applyTofr s).msg = s.msg := rfl
@[simp] theorem applyTofr_params (s : State) : (applyTofr s).params = s.params := rfl
@[simp] theorem applyTofr_pending (s : State) : (applyTofr s).pending = s.pending := rfl
@[simp] theorem applyTofr_reply (s : State) : (applyTofr s).reply = s.reply := rfl
@[simp] theorem applyTofr_draws (s : State) : (applyTofr s).draws = s.draws := rfl

@[simp] theorem applyFrfr_g (s : State) : (applyFrfr s).g = s.g := rfl
@[simp] theorem applyFrfr_f (s : State) : (applyFrfr s).f = s.f := rfl
@[simp] theorem applyFrfr_m (s : State) : (applyFrfr s).m = s.m := rfl
@[simp] theorem applyFrfr_d (s : State) : (applyFrfr s).d = fromFrame s.f := rfl
@[simp] theorem applyFrfr_pxc (s : State) : (applyFrfr s).pxc = s.pxc := rfl
@[simp] theorem applyFrfr_gix (s : State) : (applyFrfr s).gix = s.gix := rfl
@[simp] theorem applyFrfr_npix (s : State) : (applyFrfr s).npix = s.npix := rfl
@[simp] theorem applyFrfr_nch (s : State) : (applyFrfr s).nch = s.nch := rfl
@[simp] theorem applyFrfr_mlen (s : State) : (applyFrfr s).mlen = s.mlen := rfl
@[simp] theorem applyFrfr_status (s : State) : (applyFrfr s).status = s.status := rfl
@[simp] theorem applyFrfr_car (s : State) : (applyFrfr s).car = s.car := rfl
@[simp] theorem applyFrfr_out (s : State) : (applyFrfr s).out = s.out := rfl
@[simp] theorem applyFrfr_msg (s : State) : (applyFrfr s).msg = s.msg := rfl
@[simp] theorem applyFrfr_params (s : State) : (applyFrfr s).params = s.params := rfl
@[simp] theorem applyFrfr_pending (s : State) : (applyFrfr s).pending = s.pending := rfl
@[simp] theorem applyFrfr_reply (s : State) : (applyFrfr s).reply = s.reply := rfl
@[simp] theorem applyFrfr_draws (s : State) : (applyFrfr s).draws = s.draws := rfl

@[simp] theorem applyWrg_g (s : State) : (applyWrg s).g = writeGroup s.g s.f s.marker := rfl
@[simp] theorem applyWrg_f (s : State) : (applyWrg s).f = s.f := rfl
@[simp] theorem applyWrg_m (s : State) : (applyWrg s).m = s.m := rfl
@[simp] theorem applyWrg_d (s : State) : (applyWrg s).d = s.d := rfl
@[simp] theorem applyWrg_pxc (s : State) : (applyWrg s).pxc = s.pxc := rfl
@[simp] theorem applyWrg_gix (s : State) : (applyWrg s).gix = s.gix := rfl
@[simp] theorem applyWrg_npix (s : State) : (applyWrg s).npix = s.npix := rfl
@[simp] theorem applyWrg_nch (s : State) : (applyWrg s).nch = s.nch := rfl
@[simp] theorem applyWrg_mlen (s : State) : (applyWrg s).mlen = s.mlen := rfl
@[simp] theorem applyWrg_status (s : State) : (applyWrg s).status = s.status := rfl
@[simp] theorem applyWrg_car (s : State) : (applyWrg s).car = s.car := rfl
@[simp] theorem applyWrg_out (s : State) : (applyWrg s).out = s.out := rfl
@[simp] theorem applyWrg_msg (s : State) : (applyWrg s).msg = s.msg := rfl
@[simp] theorem applyWrg_params (s : State) : (applyWrg s).params = s.params := rfl
@[simp] theorem applyWrg_pending (s : State) : (applyWrg s).pending = s.pending := rfl
@[simp] theorem applyWrg_reply (s : State) : (applyWrg s).reply = s.reply := rfl
@[simp] theorem applyWrg_draws (s : State) : (applyWrg s).draws = s.draws := rfl

@[simp] theorem applyRdg_g (s : State) : (applyRdg s).g = s.g := rfl
@[simp] theorem applyRdg_f (s : State) : (applyRdg s).f = (readGroup s.g).1 := rfl
@[simp] theorem applyRdg_m (s : State) : (applyRdg s).m = markerReg (readGroup s.g).2 := rfl
@[simp] theorem applyRdg_d (s : State) : (applyRdg s).d = s.d := rfl
@[simp] theorem applyRdg_pxc (s : State) : (applyRdg s).pxc = s.pxc := rfl
@[simp] theorem applyRdg_gix (s : State) : (applyRdg s).gix = s.gix := rfl
@[simp] theorem applyRdg_npix (s : State) : (applyRdg s).npix = s.npix := rfl
@[simp] theorem applyRdg_nch (s : State) : (applyRdg s).nch = s.nch := rfl
@[simp] theorem applyRdg_mlen (s : State) : (applyRdg s).mlen = s.mlen := rfl
@[simp] theorem applyRdg_status (s : State) : (applyRdg s).status = s.status := rfl
@[simp] theorem applyRdg_car (s : State) : (applyRdg s).car = s.car := rfl
@[simp] theorem applyRdg_out (s : State) : (applyRdg s).out = s.out := rfl
@[simp] theorem applyRdg_msg (s : State) : (applyRdg s).msg = s.msg := rfl
@[simp] theorem applyRdg_params (s : State) : (applyRdg s).params = s.params := rfl
@[simp] theorem applyRdg_pending (s : State) : (applyRdg s).pending = s.pending := rfl
@[simp] theorem applyRdg_reply (s : State) : (applyRdg s).reply = s.reply := rfl
@[simp] theorem applyRdg_draws (s : State) : (applyRdg s).draws = s.draws := rfl

@[simp] theorem applyFpar_g (k : Fin 9) (w : Bool) (s : State) : (applyFpar k w s).g = s.g.set k (forceParity s.g[k] w) := rfl
@[simp] theorem applyFpar_f (k : Fin 9) (w : Bool) (s : State) : (applyFpar k w s).f = s.f := rfl
@[simp] theorem applyFpar_m (k : Fin 9) (w : Bool) (s : State) : (applyFpar k w s).m = s.m := rfl
@[simp] theorem applyFpar_d (k : Fin 9) (w : Bool) (s : State) : (applyFpar k w s).d = s.d := rfl
@[simp] theorem applyFpar_pxc (k : Fin 9) (w : Bool) (s : State) : (applyFpar k w s).pxc = s.pxc := rfl
@[simp] theorem applyFpar_gix (k : Fin 9) (w : Bool) (s : State) : (applyFpar k w s).gix = s.gix := rfl
@[simp] theorem applyFpar_npix (k : Fin 9) (w : Bool) (s : State) : (applyFpar k w s).npix = s.npix := rfl
@[simp] theorem applyFpar_nch (k : Fin 9) (w : Bool) (s : State) : (applyFpar k w s).nch = s.nch := rfl
@[simp] theorem applyFpar_mlen (k : Fin 9) (w : Bool) (s : State) : (applyFpar k w s).mlen = s.mlen := rfl
@[simp] theorem applyFpar_status (k : Fin 9) (w : Bool) (s : State) : (applyFpar k w s).status = s.status := rfl
@[simp] theorem applyFpar_car (k : Fin 9) (w : Bool) (s : State) : (applyFpar k w s).car = s.car := rfl
@[simp] theorem applyFpar_out (k : Fin 9) (w : Bool) (s : State) : (applyFpar k w s).out = s.out := rfl
@[simp] theorem applyFpar_msg (k : Fin 9) (w : Bool) (s : State) : (applyFpar k w s).msg = s.msg := rfl
@[simp] theorem applyFpar_params (k : Fin 9) (w : Bool) (s : State) : (applyFpar k w s).params = s.params := rfl
@[simp] theorem applyFpar_pending (k : Fin 9) (w : Bool) (s : State) : (applyFpar k w s).pending = s.pending := rfl
@[simp] theorem applyFpar_reply (k : Fin 9) (w : Bool) (s : State) : (applyFpar k w s).reply = s.reply := rfl
@[simp] theorem applyFpar_draws (k : Fin 9) (w : Bool) (s : State) : (applyFpar k w s).draws = s.draws := rfl

@[simp] theorem fetchPayload_g (s : State) : (fetchPayload s).g = s.g := rfl
@[simp] theorem fetchPayload_f (s : State) : (fetchPayload s).f = s.f := rfl
@[simp] theorem fetchPayload_m (s : State) : (fetchPayload s).m = s.m := rfl
@[simp] theorem fetchPayload_d (s : State) : (fetchPayload s).d = memRead .msg s.gix.toNat s := rfl
@[simp] theorem fetchPayload_pxc (s : State) : (fetchPayload s).pxc = s.pxc := rfl
@[simp] theorem fetchPayload_gix (s : State) : (fetchPayload s).gix = s.gix := rfl
@[simp] theorem fetchPayload_npix (s : State) : (fetchPayload s).npix = s.npix := rfl
@[simp] theorem fetchPayload_nch (s : State) : (fetchPayload s).nch = s.nch := rfl
@[simp] theorem fetchPayload_mlen (s : State) : (fetchPayload s).mlen = s.mlen := rfl
@[simp] theorem fetchPayload_status (s : State) : (fetchPayload s).status = s.status := rfl
@[simp] theorem fetchPayload_car (s : State) : (fetchPayload s).car = s.car := rfl
@[simp] theorem fetchPayload_out (s : State) : (fetchPayload s).out = s.out := rfl
@[simp] theorem fetchPayload_msg (s : State) : (fetchPayload s).msg = s.msg := rfl
@[simp] theorem fetchPayload_params (s : State) : (fetchPayload s).params = s.params := rfl
@[simp] theorem fetchPayload_pending (s : State) : (fetchPayload s).pending = s.pending := rfl
@[simp] theorem fetchPayload_reply (s : State) : (fetchPayload s).reply = s.reply := rfl
@[simp] theorem fetchPayload_draws (s : State) : (fetchPayload s).draws = s.draws := rfl

@[simp] theorem setMarker_g (s : State) : (setMarker s).g = s.g := rfl
@[simp] theorem setMarker_f (s : State) : (setMarker s).f = s.f := rfl
@[simp] theorem setMarker_m (s : State) : (setMarker s).m = markerReg (decide (s.gix.toNat + 1 = s.mlen.toNat)) := rfl
@[simp] theorem setMarker_d (s : State) : (setMarker s).d = s.d := rfl
@[simp] theorem setMarker_pxc (s : State) : (setMarker s).pxc = s.pxc := rfl
@[simp] theorem setMarker_gix (s : State) : (setMarker s).gix = s.gix := rfl
@[simp] theorem setMarker_npix (s : State) : (setMarker s).npix = s.npix := rfl
@[simp] theorem setMarker_nch (s : State) : (setMarker s).nch = s.nch := rfl
@[simp] theorem setMarker_mlen (s : State) : (setMarker s).mlen = s.mlen := rfl
@[simp] theorem setMarker_status (s : State) : (setMarker s).status = s.status := rfl
@[simp] theorem setMarker_car (s : State) : (setMarker s).car = s.car := rfl
@[simp] theorem setMarker_out (s : State) : (setMarker s).out = s.out := rfl
@[simp] theorem setMarker_msg (s : State) : (setMarker s).msg = s.msg := rfl
@[simp] theorem setMarker_params (s : State) : (setMarker s).params = s.params := rfl
@[simp] theorem setMarker_pending (s : State) : (setMarker s).pending = s.pending := rfl
@[simp] theorem setMarker_reply (s : State) : (setMarker s).reply = s.reply := rfl
@[simp] theorem setMarker_draws (s : State) : (setMarker s).draws = s.draws := rfl

@[simp] theorem decFinish_g (s : State) : (decFinish s).g = s.g := rfl
@[simp] theorem decFinish_f (s : State) : (decFinish s).f = s.f := rfl
@[simp] theorem decFinish_m (s : State) : (decFinish s).m = s.m := rfl
@[simp] theorem decFinish_d (s : State) : (decFinish s).d = s.d := rfl
@[simp] theorem decFinish_pxc (s : State) : (decFinish s).pxc = s.pxc := rfl
@[simp] theorem decFinish_gix (s : State) : (decFinish s).gix = s.gix := rfl
@[simp] theorem decFinish_npix (s : State) : (decFinish s).npix = s.npix := rfl
@[simp] theorem decFinish_nch (s : State) : (decFinish s).nch = s.nch := rfl
@[simp] theorem decFinish_mlen (s : State) : (decFinish s).mlen = s.gix := rfl
@[simp] theorem decFinish_status (s : State) : (decFinish s).status = s.status.succeeded := rfl
@[simp] theorem decFinish_car (s : State) : (decFinish s).car = s.car := rfl
@[simp] theorem decFinish_out (s : State) : (decFinish s).out = s.out := rfl
@[simp] theorem decFinish_msg (s : State) : (decFinish s).msg = s.msg := rfl
@[simp] theorem decFinish_params (s : State) : (decFinish s).params = s.params := rfl
@[simp] theorem decFinish_pending (s : State) : (decFinish s).pending = s.pending := rfl
@[simp] theorem decFinish_reply (s : State) : (decFinish s).reply = s.reply := rfl
@[simp] theorem decFinish_draws (s : State) : (decFinish s).draws = s.draws := rfl

end Sys2Proof.Machine
end

