-- ==== Sys2Proof/Laws/Memory.lean ====
section
/-! SUPPORT. What the memory operations do: the canonical form is kept, a read after a write gives the byte written, and
every other byte and every register stays. Slot offsets are pairwise distinct and inside the image. -/

namespace Sys2Proof.Machine

theorem Memory.find_write (a b : Nat) (v : Byte) (m : Memory) :
    Memory.find b (Memory.write a v m) = if b = a then some v else Memory.find b m := by
  induction m with
  | nil =>
    by_cases h : b = a
    · simp [Memory.write, Memory.find, h]
    · simp [Memory.write, Memory.find, h, Ne.symm h]
  | cons c rest ih =>
    obtain ⟨x, w⟩ := c
    unfold Memory.write
    by_cases h1 : a < x
    · by_cases h : b = a
      · simp [h1, Memory.find, h]
      · simp [h1, Memory.find, h, Ne.symm h]
    · by_cases h2 : a = x
      · subst h2
        by_cases h : b = a
        · simp [Memory.find, h]
        · simp [Memory.find, h, Ne.symm h]
      · by_cases h : b = a
        · subst h
          simp [h1, h2, Memory.find, Ne.symm h2, ih]
        · simp [h1, h2, Memory.find, ih, h]

theorem Memory.risingFrom_mono {lo lo' : Nat} (h : lo' ≤ lo) (m : Memory) :
    Memory.risingFrom lo m = true → Memory.risingFrom lo' m = true := by
  cases m with
  | nil => simp [Memory.risingFrom]
  | cons c rest =>
    simp only [Memory.risingFrom, Bool.and_eq_true, decide_eq_true_eq]
    rintro ⟨h1, h2⟩
    exact ⟨by omega, h2⟩

theorem Memory.risingFrom_write (a : Nat) (v : Byte) (m : Memory) (lo : Nat) (hlo : lo ≤ a)
    (hm : Memory.risingFrom lo m = true) : Memory.risingFrom lo (Memory.write a v m) = true := by
  induction m generalizing lo with
  | nil => simpa [Memory.write, Memory.risingFrom] using hlo
  | cons c rest ih =>
    obtain ⟨x, w⟩ := c
    simp only [Memory.risingFrom, Bool.and_eq_true, decide_eq_true_eq] at hm
    unfold Memory.write
    split
    · simp only [Memory.risingFrom, Bool.and_eq_true, decide_eq_true_eq]
      exact ⟨hlo, by omega, hm.2⟩
    · split
      · subst_vars
        simp only [Memory.risingFrom, Bool.and_eq_true, decide_eq_true_eq]
        exact ⟨hlo, hm.2⟩
      · simp only [Memory.risingFrom, Bool.and_eq_true, decide_eq_true_eq]
        exact ⟨hm.1, ih (x + 1) (by omega) hm.2⟩

theorem Memory.all_write (p : Host.Cell → Bool) (a : Nat) (v : Byte) (m : Memory) (ha : p (a, v) = true)
    (hm : m.all p = true) : (Memory.write a v m).all p = true := by
  induction m with
  | nil => simpa [Memory.write] using ha
  | cons c rest ih =>
    obtain ⟨x, w⟩ := c
    simp only [List.all_cons, Bool.and_eq_true] at hm
    unfold Memory.write
    split
    · simp only [List.all_cons, Bool.and_eq_true]
      exact ⟨ha, hm⟩
    · split
      · simp only [List.all_cons, Bool.and_eq_true]
        exact ⟨ha, hm.2⟩
      · simp only [List.all_cons, Bool.and_eq_true]
        exact ⟨hm.1, ih hm.2⟩

/-- A write inside the capacity keeps the canonical form. -/
theorem Memory.wf_write (cap a : Nat) (v : Byte) (m : Memory) (ha : a < cap) (hm : m.wf cap = true) :
    Memory.wf cap (Memory.write a v m) = true := by
  simp only [Memory.wf, Bool.and_eq_true] at hm ⊢
  exact ⟨Memory.risingFrom_write a v m 0 (Nat.zero_le a) hm.1,
    Memory.all_write _ a v m (by simpa using ha) hm.2⟩

theorem Memory.wf_nil (cap : Nat) : Memory.wf cap [] = true := rfl

/-! ### One byte written -/

section MemWrite
variable (sp : Space) (off : Nat) (v : Byte) (s : State)

@[simp] theorem memWrite_g : (memWrite sp off v s).g = s.g := by unfold memWrite; split <;> cases sp <;> rfl
@[simp] theorem memWrite_f : (memWrite sp off v s).f = s.f := by unfold memWrite; split <;> cases sp <;> rfl
@[simp] theorem memWrite_m : (memWrite sp off v s).m = s.m := by unfold memWrite; split <;> cases sp <;> rfl
@[simp] theorem memWrite_d : (memWrite sp off v s).d = s.d := by unfold memWrite; split <;> cases sp <;> rfl
@[simp] theorem memWrite_pxc : (memWrite sp off v s).pxc = s.pxc := by unfold memWrite; split <;> cases sp <;> rfl
@[simp] theorem memWrite_gix : (memWrite sp off v s).gix = s.gix := by unfold memWrite; split <;> cases sp <;> rfl
@[simp] theorem memWrite_npix : (memWrite sp off v s).npix = s.npix := by unfold memWrite; split <;> cases sp <;> rfl
@[simp] theorem memWrite_nch : (memWrite sp off v s).nch = s.nch := by unfold memWrite; split <;> cases sp <;> rfl
@[simp] theorem memWrite_mlen : (memWrite sp off v s).mlen = s.mlen := by unfold memWrite; split <;> cases sp <;> rfl
@[simp] theorem memWrite_status : (memWrite sp off v s).status = s.status := by unfold memWrite; split <;> cases sp <;> rfl
@[simp] theorem memWrite_params : (memWrite sp off v s).params = s.params := by unfold memWrite; split <;> cases sp <;> rfl
@[simp] theorem memWrite_pending : (memWrite sp off v s).pending = s.pending := by
  unfold memWrite; split <;> cases sp <;> rfl
@[simp] theorem memWrite_reply : (memWrite sp off v s).reply = s.reply := by unfold memWrite; split <;> cases sp <;> rfl
@[simp] theorem memWrite_draws : (memWrite sp off v s).draws = s.draws := by unfold memWrite; split <;> cases sp <;> rfl
@[simp] theorem memWrite_cap (sp' : Space) : (memWrite sp off v s).cap sp' = s.cap sp' := by cases sp' <;> simp [State.cap]

end MemWrite

theorem mem_memWrite_ne {sp sp' : Space} (h : sp' ≠ sp) (off : Nat) (v : Byte) (s : State) :
    (memWrite sp off v s).mem sp' = s.mem sp' := by
  unfold memWrite
  split
  · cases sp <;> cases sp' <;> first | rfl | exact absurd rfl h
  · rfl

@[simp] theorem memWrite_car_out (off : Nat) (v : Byte) (s : State) : (memWrite .car off v s).out = s.out :=
  mem_memWrite_ne (sp := .car) (sp' := .out) (by decide) off v s
@[simp] theorem memWrite_car_msg (off : Nat) (v : Byte) (s : State) : (memWrite .car off v s).msg = s.msg :=
  mem_memWrite_ne (sp := .car) (sp' := .msg) (by decide) off v s
@[simp] theorem memWrite_out_car (off : Nat) (v : Byte) (s : State) : (memWrite .out off v s).car = s.car :=
  mem_memWrite_ne (sp := .out) (sp' := .car) (by decide) off v s
@[simp] theorem memWrite_out_msg (off : Nat) (v : Byte) (s : State) : (memWrite .out off v s).msg = s.msg :=
  mem_memWrite_ne (sp := .out) (sp' := .msg) (by decide) off v s
@[simp] theorem memWrite_msg_car (off : Nat) (v : Byte) (s : State) : (memWrite .msg off v s).car = s.car :=
  mem_memWrite_ne (sp := .msg) (sp' := .car) (by decide) off v s
@[simp] theorem memWrite_msg_out (off : Nat) (v : Byte) (s : State) : (memWrite .msg off v s).out = s.out :=
  mem_memWrite_ne (sp := .msg) (sp' := .out) (by decide) off v s

theorem mem_memWrite_same (sp : Space) (off : Nat) (v : Byte) (s : State) (h : off < s.cap sp) :
    (memWrite sp off v s).mem sp = Memory.write off v (s.mem sp) := by
  unfold memWrite
  rw [if_pos h]
  cases sp <;> rfl

/-- All a one-byte write does to the bytes the model reads (20_memory.md R32, R40). -/
theorem memRead_memWrite (sp sp' : Space) (a b : Nat) (v : Byte) (s : State) :
    memRead sp' b (memWrite sp a v s) = if sp' = sp ∧ b = a ∧ a < s.cap sp then v else memRead sp' b s := by
  by_cases ha : a < s.cap sp
  · by_cases hs : sp' = sp
    · subst hs
      unfold memRead
      rw [memWrite_cap, mem_memWrite_same _ _ _ _ ha]
      unfold cellByte
      rw [Memory.find_write]
      by_cases hb : b = a
      · subst hb; simp [ha]
      · simp [hb]
    · unfold memRead
      rw [memWrite_cap, mem_memWrite_ne hs]
      simp [hs]
  · have : memWrite sp a v s = s := by unfold memWrite; rw [if_neg ha]
    rw [this]
    simp [ha]

theorem memRead_congr {s t : State} {sp : Space} (hm : t.mem sp = s.mem sp) (hp : t.params = s.params) (off : Nat) :
    memRead sp off t = memRead sp off s := by
  have hc : t.cap sp = s.cap sp := by cases sp <;> simp [State.cap, hp]
  simp [memRead, hm, hc]

/-- A one-byte write keeps every memory in canonical form. -/
theorem memOk_memWrite (sp : Space) (off : Nat) (v : Byte) (s : State) (h : s.MemOk) : (memWrite sp off v s).MemOk := by
  obtain ⟨h1, h2, h3⟩ := h
  unfold memWrite
  split
  next hlt =>
    cases sp with
    | car => exact ⟨Memory.wf_write _ _ _ _ hlt h1, h2, h3⟩
    | out => exact ⟨h1, Memory.wf_write _ _ _ _ hlt h2, h3⟩
    | msg => exact ⟨h1, h2, Memory.wf_write _ _ _ _ hlt h3⟩
  next => exact ⟨h1, h2, h3⟩

/-! ### Reads across updates of registers -/

section Reads
variable (sp : Space) (off : Nat) (s : State)

@[simp] theorem memRead_beginCommand : memRead sp off (beginCommand s) = memRead sp off s := by cases sp <;> rfl
@[simp] theorem memRead_endCommand : memRead sp off (endCommand s) = memRead sp off s := by cases sp <;> rfl
@[simp] theorem memRead_succeed : memRead sp off (succeed s) = memRead sp off s := by cases sp <;> rfl
@[simp] theorem memRead_clearError : memRead sp off (clearError s) = memRead sp off s := by cases sp <;> rfl
@[simp] theorem memRead_raise (k : ErrorKind) : memRead sp off (raise k s) = memRead sp off s := by cases sp <;> rfl
@[simp] theorem memRead_advance : memRead sp off (advance s) = memRead sp off s := by cases sp <;> rfl
@[simp] theorem memRead_restartScan : memRead sp off (restartScan s) = memRead sp off s := by cases sp <;> rfl
@[simp] theorem memRead_loadGroup (sp' : Space) : memRead sp off (loadGroup sp' s) = memRead sp off s := by
  cases sp <;> rfl
@[simp] theorem memRead_resetRegisters : memRead sp off (resetRegisters s) = memRead sp off s := by cases sp <;> rfl
@[simp] theorem memRead_applyTofr : memRead sp off (applyTofr s) = memRead sp off s := by cases sp <;> rfl
@[simp] theorem memRead_applyFrfr : memRead sp off (applyFrfr s) = memRead sp off s := by cases sp <;> rfl
@[simp] theorem memRead_applyWrg : memRead sp off (applyWrg s) = memRead sp off s := by cases sp <;> rfl
@[simp] theorem memRead_applyRdg : memRead sp off (applyRdg s) = memRead sp off s := by cases sp <;> rfl
@[simp] theorem memRead_applyFpar (k : Fin 9) (w : Bool) : memRead sp off (applyFpar k w s) = memRead sp off s := by
  cases sp <;> rfl
@[simp] theorem memRead_fetchPayload : memRead sp off (fetchPayload s) = memRead sp off s := by cases sp <;> rfl
@[simp] theorem memRead_setMarker : memRead sp off (setMarker s) = memRead sp off s := by cases sp <;> rfl
@[simp] theorem memRead_decFinish : memRead sp off (decFinish s) = memRead sp off s := by cases sp <;> rfl

end Reads

/-! ### Many bytes written -/

/-- What every one-byte write of a space leaves alone, filling cells of that space leaves alone. -/
theorem fillCells_keeps {α : Type} (φ : State → α) (sp : Space)
    (h : ∀ a v t, φ (memWrite sp a v t) = φ t) (v : Nat → Byte) (n : Nat) (s : State) :
    φ (fillCells sp v n s) = φ s := by
  induction n with
  | zero => rfl
  | succ n ih => rw [fillCells, h, ih]

section FillCells
variable (sp : Space) (v : Nat → Byte) (n : Nat) (s : State)

@[simp] theorem fillCells_g : (fillCells sp v n s).g = s.g := fillCells_keeps State.g sp (by simp) v n s
@[simp] theorem fillCells_f : (fillCells sp v n s).f = s.f := fillCells_keeps State.f sp (by simp) v n s
@[simp] theorem fillCells_m : (fillCells sp v n s).m = s.m := fillCells_keeps State.m sp (by simp) v n s
@[simp] theorem fillCells_d : (fillCells sp v n s).d = s.d := fillCells_keeps State.d sp (by simp) v n s
@[simp] theorem fillCells_pxc : (fillCells sp v n s).pxc = s.pxc := fillCells_keeps State.pxc sp (by simp) v n s
@[simp] theorem fillCells_gix : (fillCells sp v n s).gix = s.gix := fillCells_keeps State.gix sp (by simp) v n s
@[simp] theorem fillCells_npix : (fillCells sp v n s).npix = s.npix := fillCells_keeps State.npix sp (by simp) v n s
@[simp] theorem fillCells_nch : (fillCells sp v n s).nch = s.nch := fillCells_keeps State.nch sp (by simp) v n s
@[simp] theorem fillCells_mlen : (fillCells sp v n s).mlen = s.mlen := fillCells_keeps State.mlen sp (by simp) v n s
@[simp] theorem fillCells_status : (fillCells sp v n s).status = s.status :=
  fillCells_keeps State.status sp (by simp) v n s
@[simp] theorem fillCells_params : (fillCells sp v n s).params = s.params :=
  fillCells_keeps State.params sp (by simp) v n s
@[simp] theorem fillCells_pending : (fillCells sp v n s).pending = s.pending :=
  fillCells_keeps State.pending sp (by simp) v n s
@[simp] theorem fillCells_reply : (fillCells sp v n s).reply = s.reply := fillCells_keeps State.reply sp (by simp) v n s
@[simp] theorem fillCells_draws : (fillCells sp v n s).draws = s.draws := fillCells_keeps State.draws sp (by simp) v n s
@[simp] theorem fillCells_cap (sp' : Space) : (fillCells sp v n s).cap sp' = s.cap sp' :=
  fillCells_keeps (fun t => t.cap sp') sp (by simp) v n s

end FillCells

theorem mem_fillCells_ne {sp sp' : Space} (h : sp' ≠ sp) (v : Nat → Byte) (n : Nat) (s : State) :
    (fillCells sp v n s).mem sp' = s.mem sp' :=
  fillCells_keeps (fun t => t.mem sp') sp (fun a v t => mem_memWrite_ne h a v t) v n s

@[simp] theorem fillCells_car_out (v : Nat → Byte) (n : Nat) (s : State) : (fillCells .car v n s).out = s.out :=
  mem_fillCells_ne (sp := .car) (sp' := .out) (by decide) v n s
@[simp] theorem fillCells_car_msg (v : Nat → Byte) (n : Nat) (s : State) : (fillCells .car v n s).msg = s.msg :=
  mem_fillCells_ne (sp := .car) (sp' := .msg) (by decide) v n s
@[simp] theorem fillCells_out_car (v : Nat → Byte) (n : Nat) (s : State) : (fillCells .out v n s).car = s.car :=
  mem_fillCells_ne (sp := .out) (sp' := .car) (by decide) v n s
@[simp] theorem fillCells_out_msg (v : Nat → Byte) (n : Nat) (s : State) : (fillCells .out v n s).msg = s.msg :=
  mem_fillCells_ne (sp := .out) (sp' := .msg) (by decide) v n s
@[simp] theorem fillCells_msg_car (v : Nat → Byte) (n : Nat) (s : State) : (fillCells .msg v n s).car = s.car :=
  mem_fillCells_ne (sp := .msg) (sp' := .car) (by decide) v n s
@[simp] theorem fillCells_msg_out (v : Nat → Byte) (n : Nat) (s : State) : (fillCells .msg v n s).out = s.out :=
  mem_fillCells_ne (sp := .msg) (sp' := .out) (by decide) v n s

/-- All filling cells does to the bytes the model reads. -/
theorem memRead_fillCells (sp sp' : Space) (v : Nat → Byte) (n b : Nat) (s : State) :
    memRead sp' b (fillCells sp v n s) = if sp' = sp ∧ b < n ∧ b < s.cap sp then v b else memRead sp' b s := by
  induction n with
  | zero => simp [fillCells]
  | succ n ih =>
    rw [fillCells, memRead_memWrite, ih, fillCells_cap]
    by_cases hs : sp' = sp
    · by_cases hb : b = n
      · subst hb
        by_cases hc : b < s.cap sp <;> simp [hs, hc]
      · have : b < n + 1 ↔ b < n := by omega
        simp [hs, hb, this]
    · simp [hs]

theorem memOk_fillCells (sp : Space) (v : Nat → Byte) (n : Nat) (s : State) (h : s.MemOk) :
    (fillCells sp v n s).MemOk := by
  induction n with
  | zero => exact h
  | succ n ih => exact memOk_memWrite _ _ _ _ ih

/-! ### Reset -/

/-- Cells a cut command could not have written read as before (70_reset_and_hazards.md R105). -/
theorem memRead_scramble_of_not (sp sp' : Space) (n off : Nat) (c s : State) (h : ¬ (sp' = sp ∧ off < n)) :
    memRead sp' off (scramble sp n c s) = memRead sp' off s := by
  rw [scramble, memRead_fillCells, if_neg (fun e => h ⟨e.1, e.2.1⟩)]

theorem memOk_scramble (sp : Space) (n : Nat) (c s : State) (h : s.MemOk) : (scramble sp n c s).MemOk :=
  memOk_fillCells _ _ _ _ h

/-- Resetting a memory leaves a free byte of what each of its cells held, and the other memories alone. -/
theorem memRead_resetMemory (sp sp' : Space) (off : Nat) (s : State) :
    memRead sp' off (resetMemory sp s)
      = if sp' = sp ∧ off < s.cap sp then Config.resetByte s.draws sp off (memRead sp off s) else memRead sp' off s := by
  rw [resetMemory, memRead_fillCells]
  exact if_congr (by tauto) rfl rfl

/-- What resetting a memory leaves alone. -/
theorem resetMemory_keeps {α : Type} (φ : State → α) (sp : Space) (h : ∀ a v t, φ (memWrite sp a v t) = φ t)
    (s : State) : φ (resetMemory sp s) = φ s :=
  fillCells_keeps φ sp h _ _ s

/-- What reset leaves alone, and what it does to each register: as resetRegisters does (70_reset_and_hazards.md R104). -/
theorem resetMachine_keeps {α : Type} (φ : State → α) (h : ∀ sp a v t, φ (memWrite sp a v t) = φ t)
    (hd : ∀ t n, φ { t with draws := n } = φ t) (s : State) : φ (resetMachine s) = φ (resetRegisters s) := by
  rw [resetMachine, hd, resetMemory_keeps φ _ (h _), resetMemory_keeps φ _ (h _), resetMemory_keeps φ _ (h _)]

section Reset
variable (s : State)

@[simp] theorem resetMachine_g : (resetMachine s).g = #v[0, 0, 0, 0, 0, 0, 0, 0, 0] :=
  resetMachine_keeps State.g (by simp) (fun _ _ => rfl) s
@[simp] theorem resetMachine_f : (resetMachine s).f = 0 := resetMachine_keeps State.f (by simp) (fun _ _ => rfl) s
@[simp] theorem resetMachine_m : (resetMachine s).m = 0 := resetMachine_keeps State.m (by simp) (fun _ _ => rfl) s
@[simp] theorem resetMachine_d : (resetMachine s).d = 0 := resetMachine_keeps State.d (by simp) (fun _ _ => rfl) s
@[simp] theorem resetMachine_pxc : (resetMachine s).pxc = 0 := resetMachine_keeps State.pxc (by simp) (fun _ _ => rfl) s
@[simp] theorem resetMachine_gix : (resetMachine s).gix = 0 := resetMachine_keeps State.gix (by simp) (fun _ _ => rfl) s
@[simp] theorem resetMachine_npix : (resetMachine s).npix = 0 :=
  resetMachine_keeps State.npix (by simp) (fun _ _ => rfl) s
@[simp] theorem resetMachine_nch : (resetMachine s).nch = 3 := resetMachine_keeps State.nch (by simp) (fun _ _ => rfl) s
@[simp] theorem resetMachine_mlen : (resetMachine s).mlen = 0 :=
  resetMachine_keeps State.mlen (by simp) (fun _ _ => rfl) s
@[simp] theorem resetMachine_status :
    (resetMachine s).status = { busy := false, done := false, errf := false, code := 0 } :=
  resetMachine_keeps State.status (by simp) (fun _ _ => rfl) s
@[simp] theorem resetMachine_params : (resetMachine s).params = s.params :=
  resetMachine_keeps State.params (by simp) (fun _ _ => rfl) s
@[simp] theorem resetMachine_pending : (resetMachine s).pending = s.pending :=
  resetMachine_keeps State.pending (by simp) (fun _ _ => rfl) s
@[simp] theorem resetMachine_reply : (resetMachine s).reply = s.reply :=
  resetMachine_keeps State.reply (by simp) (fun _ _ => rfl) s
@[simp] theorem resetMachine_draws : (resetMachine s).draws = s.draws + 1 := rfl

end Reset

/-- After reset every cell of every memory holds a free byte of what it held (70_reset_and_hazards.md R105). -/
theorem memRead_resetMachine (sp : Space) (off : Nat) (s : State) (h : off < s.cap sp) :
    memRead sp off (resetMachine s) = Config.resetByte s.draws sp off (memRead sp off s) := by
  have hd : ∀ (t : State) (n : Nat), memRead sp off { t with draws := n } = memRead sp off t := fun t n => by cases sp <;> rfl
  have hk : ∀ (sp' : Space) (t : State), (resetMemory sp' t).draws = t.draws ∧ ∀ q, (resetMemory sp' t).cap q = t.cap q :=
    fun sp' t => ⟨resetMemory_keeps State.draws sp' (by simp) t,
      fun q => resetMemory_keeps (fun u => u.cap q) sp' (by simp) t⟩
  have hc : ∀ q, (resetRegisters s).cap q = s.cap q := fun q => by cases q <;> rfl
  rw [resetMachine, hd]
  simp only [memRead_resetMemory, (hk _ _).1, (hk _ _).2, hc, memRead_resetRegisters, resetRegisters_draws]
  cases sp <;> simp [h]

theorem memOk_resetMachine (s : State) (h : s.MemOk) : (resetMachine s).MemOk :=
  memOk_fillCells _ _ _ _ (memOk_fillCells _ _ _ _ (memOk_fillCells _ _ _ _ h))

/-! ### Slots of a group -/

/-- Different slots of the same or of different groups lie at different offsets (20_memory.md R35, R43). -/
theorem slotOffset_inj {nch i j k l : Nat} (hn : 3 ≤ nch) (hk : k < 9) (hl : l < 9)
    (h : slotOffset nch (3 * i) k = slotOffset nch (3 * j) l) : i = j ∧ k = l := by
  unfold slotOffset at h
  have hpos : 0 < nch := by omega
  have hk3 : k % 3 < nch := by omega
  have hl3 : l % 3 < nch := by omega
  have hd := congrArg (· / nch) h
  have hm := congrArg (· % nch) h
  simp only [Nat.mul_comm _ nch, Nat.mul_add_div hpos, Nat.mul_add_mod, Nat.div_eq_of_lt hk3,
    Nat.div_eq_of_lt hl3, Nat.mod_eq_of_lt hk3, Nat.mod_eq_of_lt hl3] at hd hm
  omega

/-- Every slot of a group of the image lies inside the image (20_memory.md R43). -/
theorem slotOffset_lt {nch npix i k : Nat} (hn : 3 ≤ nch) (hk : k < 9) (hi : 3 * i + 3 ≤ npix) :
    slotOffset nch (3 * i) k < npix * nch := by
  unfold slotOffset
  have h1 : 3 * i + k / 3 + 1 ≤ npix := by omega
  have h2 : (3 * i + k / 3 + 1) * nch ≤ npix * nch := Nat.mul_le_mul_right _ h1
  have h3 : (3 * i + k / 3 + 1) * nch = (3 * i + k / 3) * nch + nch := by ring
  omega

/-- What every one-byte write of a space leaves alone, storing slots into that space leaves alone. -/
theorem foldl_memWrite_keeps {α : Type} (φ : State → α) (sp : Space) (h : ∀ a v t, φ (memWrite sp a v t) = φ t)
    (off : Fin 9 → Nat) (v : Fin 9 → Byte) (ks : List (Fin 9)) (s : State) :
    φ (ks.foldl (fun t k => memWrite sp (off k) (v k) t) s) = φ s := by
  induction ks generalizing s with
  | nil => rfl
  | cons k ks ih => rw [List.foldl_cons, ih, h]

section StoreGroup
variable (sp : Space) (s : State)

theorem storeGroup_keeps {α : Type} (φ : State → α) (sp : Space) (h : ∀ a v t, φ (memWrite sp a v t) = φ t)
    (s : State) : φ (storeGroup sp s) = φ s :=
  foldl_memWrite_keeps φ sp h (fun k => slotOffset s.nch.toNat s.pxc.toNat k.val) (fun k => s.g[k]) slots s

@[simp] theorem storeGroup_g : (storeGroup sp s).g = s.g := storeGroup_keeps State.g sp (by simp) s
@[simp] theorem storeGroup_f : (storeGroup sp s).f = s.f := storeGroup_keeps State.f sp (by simp) s
@[simp] theorem storeGroup_m : (storeGroup sp s).m = s.m := storeGroup_keeps State.m sp (by simp) s
@[simp] theorem storeGroup_d : (storeGroup sp s).d = s.d := storeGroup_keeps State.d sp (by simp) s
@[simp] theorem storeGroup_pxc : (storeGroup sp s).pxc = s.pxc := storeGroup_keeps State.pxc sp (by simp) s
@[simp] theorem storeGroup_gix : (storeGroup sp s).gix = s.gix := storeGroup_keeps State.gix sp (by simp) s
@[simp] theorem storeGroup_npix : (storeGroup sp s).npix = s.npix := storeGroup_keeps State.npix sp (by simp) s
@[simp] theorem storeGroup_nch : (storeGroup sp s).nch = s.nch := storeGroup_keeps State.nch sp (by simp) s
@[simp] theorem storeGroup_mlen : (storeGroup sp s).mlen = s.mlen := storeGroup_keeps State.mlen sp (by simp) s
@[simp] theorem storeGroup_status : (storeGroup sp s).status = s.status := storeGroup_keeps State.status sp (by simp) s
@[simp] theorem storeGroup_params : (storeGroup sp s).params = s.params := storeGroup_keeps State.params sp (by simp) s
@[simp] theorem storeGroup_pending : (storeGroup sp s).pending = s.pending :=
  storeGroup_keeps State.pending sp (by simp) s
@[simp] theorem storeGroup_reply : (storeGroup sp s).reply = s.reply := storeGroup_keeps State.reply sp (by simp) s
@[simp] theorem storeGroup_draws : (storeGroup sp s).draws = s.draws := storeGroup_keeps State.draws sp (by simp) s
@[simp] theorem storeGroup_cap (sp' : Space) : (storeGroup sp s).cap sp' = s.cap sp' :=
  storeGroup_keeps (fun t => t.cap sp') sp (by simp) s

end StoreGroup

theorem mem_storeGroup_ne {sp sp' : Space} (h : sp' ≠ sp) (s : State) : (storeGroup sp s).mem sp' = s.mem sp' :=
  storeGroup_keeps (fun t => t.mem sp') sp (fun a v t => mem_memWrite_ne h a v t) s

@[simp] theorem storeGroup_car_out (s : State) : (storeGroup .car s).out = s.out :=
  mem_storeGroup_ne (sp := .car) (sp' := .out) (by decide) s
@[simp] theorem storeGroup_car_msg (s : State) : (storeGroup .car s).msg = s.msg :=
  mem_storeGroup_ne (sp := .car) (sp' := .msg) (by decide) s
@[simp] theorem storeGroup_out_car (s : State) : (storeGroup .out s).car = s.car :=
  mem_storeGroup_ne (sp := .out) (sp' := .car) (by decide) s
@[simp] theorem storeGroup_out_msg (s : State) : (storeGroup .out s).msg = s.msg :=
  mem_storeGroup_ne (sp := .out) (sp' := .msg) (by decide) s
@[simp] theorem storeGroup_msg_car (s : State) : (storeGroup .msg s).car = s.car :=
  mem_storeGroup_ne (sp := .msg) (sp' := .car) (by decide) s
@[simp] theorem storeGroup_msg_out (s : State) : (storeGroup .msg s).out = s.out :=
  mem_storeGroup_ne (sp := .msg) (sp' := .out) (by decide) s

theorem mem_slots (k : Fin 9) : k ∈ slots := by fin_cases k <;> decide

theorem memRead_foldl_other (sp sp' : Space) (off : Fin 9 → Nat) (v : Fin 9 → Byte) (b : Nat) (ks : List (Fin 9))
    (s : State) (h : sp' = sp → ∀ k ∈ ks, b ≠ off k) :
    memRead sp' b (ks.foldl (fun t k => memWrite sp (off k) (v k) t) s) = memRead sp' b s := by
  induction ks generalizing s with
  | nil => rfl
  | cons k ks ih =>
    rw [List.foldl_cons, ih _ (fun e l hl => h e l (List.mem_cons_of_mem _ hl)), memRead_memWrite, if_neg]
    rintro ⟨e, hb, -⟩
    exact h e k List.mem_cons_self hb

theorem memRead_foldl_slot (sp : Space) (off : Fin 9 → Nat) (v : Fin 9 → Byte) (ks : List (Fin 9)) (s : State)
    (hinj : ∀ k l, off k = off l → k = l) (k : Fin 9) (hk : k ∈ ks) (hc : off k < s.cap sp) :
    memRead sp (off k) (ks.foldl (fun t k => memWrite sp (off k) (v k) t) s) = v k := by
  induction ks generalizing s with
  | nil => simp at hk
  | cons l ks ih =>
    rw [List.foldl_cons]
    by_cases hin : k ∈ ks
    · exact ih _ hin (by simpa using hc)
    · have hkl : k = l := by simpa [hin] using hk
      subst hkl
      rw [memRead_foldl_other sp sp off v _ ks _ (fun _ l hl e => hin ((hinj k l e).symm ▸ hl)), memRead_memWrite,
        if_pos ⟨rfl, rfl, hc⟩]

/-- A stored slot reads as the group register stored to it (20_memory.md R48). -/
theorem memRead_storeGroup_slot (sp : Space) (s : State) (i : Nat) (k : Fin 9) (hp : s.pxc.toNat = 3 * i)
    (hn : 3 ≤ s.nch.toNat) (hc : slotOffset s.nch.toNat (3 * i) k.val < s.cap sp) :
    memRead sp (slotOffset s.nch.toNat (3 * i) k.val) (storeGroup sp s) = s.g[k] := by
  have := memRead_foldl_slot sp (fun k => slotOffset s.nch.toNat s.pxc.toNat k.val) (fun k => s.g[k]) slots s
    (fun k l e => Fin.ext (slotOffset_inj hn k.isLt l.isLt (by simpa [hp] using e)).2) k (mem_slots k)
    (by simpa [hp] using hc)
  rw [← hp]
  exact this

/-- Every byte that is no slot of the stored group reads as before (20_memory.md R48). -/
theorem memRead_storeGroup_other (sp sp' : Space) (s : State) (b : Nat)
    (h : sp' = sp → ∀ k : Fin 9, b ≠ slotOffset s.nch.toNat s.pxc.toNat k.val) :
    memRead sp' b (storeGroup sp s) = memRead sp' b s :=
  memRead_foldl_other sp sp' _ _ b slots s fun e k _ => h e k

theorem memOk_storeGroup (sp : Space) (s : State) (h : s.MemOk) : (storeGroup sp s).MemOk := by
  have : ∀ (ks : List (Fin 9)) (off : Fin 9 → Nat) (v : Fin 9 → Byte) (t : State), t.MemOk →
      (ks.foldl (fun t k => memWrite sp (off k) (v k) t) t).MemOk := by
    intro ks off v
    induction ks with
    | nil => exact fun _ h => h
    | cons k ks ih => exact fun t ht => ih _ (memOk_memWrite _ _ _ _ ht)
  exact this slots _ _ s h

end Sys2Proof.Machine
end

