-- ==== Sys2Proof/Laws/Codec.lean ====
section
/-! SUPPORT. The small laws of frames, parities and groups. -/

namespace Sys2Proof.Machine

/-- The frame bits of a packed byte are the bits packed (30_encoding.md R49). -/
theorem frameBit_packBits (b : Nat → Bool) (j : Nat) (hj : j < 8) : frameBit (packBits b) j = b j := by
  have h : ∀ b0 b1 b2 b3 b4 b5 b6 b7 : Bool,
      let v := BitVec.ofNat 8 (b0.toNat * 128 + b1.toNat * 64 + b2.toNat * 32 + b3.toNat * 16
        + b4.toNat * 8 + b5.toNat * 4 + b6.toNat * 2 + b7.toNat)
      v.getLsbD 7 = b0 ∧ v.getLsbD 6 = b1 ∧ v.getLsbD 5 = b2 ∧ v.getLsbD 4 = b3
        ∧ v.getLsbD 3 = b4 ∧ v.getLsbD 2 = b5 ∧ v.getLsbD 1 = b6 ∧ v.getLsbD 0 = b7 := by decide
  obtain ⟨h0, h1, h2, h3, h4, h5, h6, h7⟩ := h (b 0) (b 1) (b 2) (b 3) (b 4) (b 5) (b 6) (b 7)
  interval_cases j <;> assumption

/-- Two bytes with the same eight frame bits are equal. -/
theorem byte_ext {x y : Byte} (h : ∀ j, j < 8 → frameBit x j = frameBit y j) : x = y := by
  apply BitVec.eq_of_getLsbD_eq
  intro i hi
  have := h (7 - i) (by omega)
  simpa [frameBit, show 7 - (7 - i) = i by omega] using this

/-- The framer renumbers bits, it does not change them (40_bit_framer.md R65). -/
theorem toFrame_eq (b : Byte) : toFrame b = b :=
  byte_ext fun j hj => by rw [toFrame, frameBit_packBits _ j hj]; rfl

theorem fromFrame_eq (f : Byte) : fromFrame f = f :=
  byte_ext fun j hj => by rw [fromFrame, frameBit_packBits _ j hj]

/-- The parity of a forced value is the wanted parity. -/
theorem parity_forceParity (v : Byte) (w : Bool) : parity (forceParity v w) = w := by
  revert v w; decide

/-- Parity as a number (30_encoding.md R53). -/
theorem toNat_parity (v : Byte) : (parity v).toNat = v.toNat % 2 := by
  revert v; decide

theorem parity_iff (v : Byte) : parity v = true ↔ v.toNat % 2 = 1 := by
  revert v; decide

/-- A value that has the wanted parity is left alone. -/
theorem forceParity_of_parity (v : Byte) (w : Bool) (h : parity v = w) : forceParity v w = v := by
  subst h; unfold forceParity; cases parity v <;> simp

@[simp] theorem writeGroup_slot (g : GroupRegs) (f : Byte) (m : Bool) (k : Fin 9) :
    (writeGroup g f m)[k.val] = forceParity g[k] (slotBit f m k) := by simp [writeGroup]

theorem readGroup_frameBit (g : GroupRegs) (j : Nat) (hj : j < 8) :
    frameBit (readGroup g).1 j = parity (g[j]'(by omega)) := by
  rw [readGroup, frameBit_packBits _ j hj, dif_pos]

/-- Reading back a written group gives the frame and the marker written (42_read_path.md R76). -/
theorem readGroup_frame_of_slots (g : GroupRegs) (f : Byte) (m : Bool)
    (h : ∀ k : Fin 9, parity g[k] = slotBit f m k) : readGroup g = (f, m) := by
  refine Prod.ext (byte_ext fun j hj => ?_) ?_
  · rw [readGroup_frameBit g j hj]
    have := h ⟨j, by omega⟩
    simpa [slotBit, hj] using this
  · simpa [slotBit, readGroup] using h 8

/-- The frame a group's parities spell, as a number (43_orchestration.md R86). -/
theorem toNat_readGroup (g : GroupRegs) : ((readGroup g).1).toNat
    = ∑ j ∈ Finset.range 8, (if h : j < 9 then g[j].toNat % 2 else 0) * 2 ^ (7 - j) := by
  have key : ∀ b0 b1 b2 b3 b4 b5 b6 b7 : Bool,
      (BitVec.ofNat 8 (b0.toNat * 128 + b1.toNat * 64 + b2.toNat * 32 + b3.toNat * 16
        + b4.toNat * 8 + b5.toNat * 4 + b6.toNat * 2 + b7.toNat)).toNat
      = b0.toNat * 128 + b1.toNat * 64 + b2.toNat * 32 + b3.toNat * 16
        + b4.toNat * 8 + b5.toNat * 4 + b6.toNat * 2 + b7.toNat := by decide
  simp only [readGroup, packBits, key, Finset.sum_range_succ, Finset.sum_range_zero]
  simp [toNat_parity]

theorem marker_of_bool (b : Bool) (s : State) (h : s.m = markerReg b) : s.marker = b := by
  simp [State.marker, h, markerReg]

@[simp] theorem getLsbD_markerReg (b : Bool) : (markerReg b).getLsbD 0 = b := by cases b <;> rfl

/-- FPAR's field names the register of its own number, for 0..8 (30_encoding.md R56). -/
theorem groupIndex_of_le (a : BitVec 4) (h : a.toNat ≤ 8) : groupIndex a = some ⟨a.toNat, by omega⟩ := by
  simp [groupIndex, show a.toNat < 9 by omega]

/-- FPAR's field names no register, for 9..15 (30_encoding.md R56). -/
theorem groupIndex_of_gt (a : BitVec 4) (h : 8 < a.toNat) : groupIndex a = none := by
  simp [groupIndex, show ¬ a.toNat < 9 by omega]

/-- The register numbers of the group registers (10_state.md R11). -/
theorem regOfNumber_g (k : Fin 9) : regOfNumber (16 + k.val) = some (.g k) := by
  have := k.isLt
  simp [regOfNumber]
  omega

end Sys2Proof.Machine
end

