-- ==== Sys2Proof/Laws/Loops.lean ====
section
/-! SUPPORT. What the group loops of ENC and DEC do, by induction on the number of groups. -/

namespace Sys2Proof.Machine

/-- The bit slot `k` of group `i` carries in an ENC of the payload in MSG. -/
def payloadBit (s : State) (i : Nat) (k : Fin 9) : Bool :=
  slotBit (toFrame (memRead .msg i s)) (decide (i + 1 = s.mlen.toNat)) k

/-- The group registers after LoadGroup of group `i` of the carrier. -/
def carrierGroup (s : State) (i : Nat) : GroupRegs := Vector.ofFn fun (k : Fin 9) => memRead .car (slotAt s i k) s

@[simp] theorem carrierGroup_slot (s : State) (i : Nat) (k : Fin 9) :
    (carrierGroup s i)[k.val] = memRead .car (slotAt s i k) s := by simp [carrierGroup]

/-- One pass over group `i` keeps every register but the working ones and every memory but OUT; what it leaves. -/
structure EncPass (s t : State) (i : Nat) : Prop where
  npix : t.npix = s.npix
  nch : t.nch = s.nch
  mlen : t.mlen = s.mlen
  status : t.status = s.status
  params : t.params = s.params
  pending : t.pending = s.pending
  reply : t.reply = s.reply
  draws : t.draws = s.draws
  car : t.car = s.car
  msg : t.msg = s.msg
  pxc : t.pxc = s.pxc + 3
  gix : t.gix = s.gix + 1
  d : t.d = memRead .msg i s
  f : t.f = memRead .msg i s
  m : t.m = markerReg (decide (i + 1 = s.mlen.toNat))
  g : ∀ k : Fin 9, t.g[k] = forceParity (memRead .car (slotAt s i k) s) (payloadBit s i k)
  slot : ∀ k : Fin 9, memRead .out (slotAt s i k) t = forceParity (memRead .car (slotAt s i k) s) (payloadBit s i k)
  other : ∀ b, (∀ k : Fin 9, b ≠ slotAt s i k) → memRead .out b t = memRead .out b s

theorem memRead_of_car {s t : State} (hc : t.car = s.car) (hp : t.params = s.params) (b : Nat) :
    memRead .car b t = memRead .car b s := memRead_congr (sp := .car) hc hp b

theorem memRead_of_msg {s t : State} (hc : t.msg = s.msg) (hp : t.params = s.params) (b : Nat) :
    memRead .msg b t = memRead .msg b s := memRead_congr (sp := .msg) hc hp b

theorem memRead_of_out {s t : State} (hc : t.out = s.out) (hp : t.params = s.params) (b : Nat) :
    memRead .out b t = memRead .out b s := memRead_congr (sp := .out) hc hp b

theorem encGroup_pass (s : State) (i : Nat) (hp : s.pxc.toNat = 3 * i) (hi : s.gix.toNat = i)
    (hn : 3 ≤ s.nch.toNat) (hc : s.npix.toNat * s.nch.toNat ≤ s.params.pixmemBytes)
    (hx : 3 * i + 3 ≤ s.npix.toNat) : EncPass s (encGroup s) i := by
  have hlt : ∀ k : Fin 9, slotOffset s.nch.toNat (3 * i) k.val < s.params.pixmemBytes := fun k =>
    lt_of_lt_of_le (slotOffset_lt hn k.isLt hx) hc
  have hg : ∀ k : Fin 9, (encGroup s).g[k] = forceParity (memRead .car (slotAt s i k) s) (payloadBit s i k) := by
    intro k
    have hm : (loadGroup .car (setMarker (applyTofr (fetchPayload s)))).marker = decide (i + 1 = s.mlen.toNat) :=
      marker_of_bool _ _ (by simp [hi])
    simp [encGroup, slotAt, payloadBit, hp, hi, hm]
  refine ⟨by simp [encGroup], by simp [encGroup], by simp [encGroup], by simp [encGroup], by simp [encGroup],
    by simp [encGroup], by simp [encGroup], by simp [encGroup], by simp [encGroup], by simp [encGroup], by simp [encGroup], by simp [encGroup],
    by simp [encGroup, hi], by simp [encGroup, hi, toFrame_eq], by simp [encGroup, hi], hg, ?_, ?_⟩
  · intro k
    rw [← hg k, slotAt, encGroup, memRead_advance, advance_g, storeGroup_g]
    exact memRead_storeGroup_slot .out (applyWrg (loadGroup .car (setMarker (applyTofr (fetchPayload s))))) i k hp hn (hlt k)
  · intro b hb
    rw [encGroup, memRead_advance, memRead_storeGroup_other]
    · simp
    · intro _ k
      have := hb k
      rwa [slotAt, ← hp] at this

/-- What `n` passes from group `i` on leave. -/
structure EncPasses (s t : State) (i n : Nat) : Prop where
  npix : t.npix = s.npix
  nch : t.nch = s.nch
  mlen : t.mlen = s.mlen
  status : t.status = s.status
  params : t.params = s.params
  pending : t.pending = s.pending
  reply : t.reply = s.reply
  draws : t.draws = s.draws
  car : t.car = s.car
  msg : t.msg = s.msg
  pxc : t.pxc.toNat = 3 * (i + n)
  gix : t.gix.toNat = i + n
  d : 0 < n → t.d = memRead .msg (i + n - 1) s
  f : 0 < n → t.f = memRead .msg (i + n - 1) s
  m : 0 < n → t.m = markerReg (decide (i + n = s.mlen.toNat))
  g : 0 < n → ∀ k : Fin 9,
    t.g[k] = forceParity (memRead .car (slotAt s (i + n - 1) k) s) (payloadBit s (i + n - 1) k)
  slot : ∀ j, i ≤ j → j < i + n → ∀ k : Fin 9,
    memRead .out (slotAt s j k) t = forceParity (memRead .car (slotAt s j k) s) (payloadBit s j k)
  other : ∀ b, (∀ j, i ≤ j → j < i + n → ∀ k : Fin 9, b ≠ slotAt s j k) → memRead .out b t = memRead .out b s

theorem encLoop_passes (n : Nat) (s : State) (i : Nat) (hp : s.pxc.toNat = 3 * i) (hi : s.gix.toNat = i)
    (hn : 3 ≤ s.nch.toNat) (hc : s.npix.toNat * s.nch.toNat ≤ s.params.pixmemBytes)
    (hx : 3 * (i + n) ≤ s.npix.toNat) : EncPasses s (encLoop n s) i n := by
  induction n generalizing s i with
  | zero =>
    refine ⟨rfl, rfl, rfl, rfl, rfl, rfl, rfl, rfl, rfl, rfl, hp, hi, ?_, ?_, ?_, ?_, ?_, ?_⟩
    · intro h; omega
    · intro h; omega
    · intro h; omega
    · intro h; omega
    · intro j h1 h2; omega
    · intro b _; rfl
  | succ n ih =>
    have hb := s.npix.isLt
    have P := encGroup_pass s i hp hi hn hc (by omega)
    have hp1 : (encGroup s).pxc.toNat = 3 * (i + 1) := by
      rw [P.pxc, BitVec.toNat_add]; simp; omega
    have hi1 : (encGroup s).gix.toNat = i + 1 := by
      rw [P.gix, BitVec.toNat_add]; simp; omega
    have Q := ih (encGroup s) (i + 1) hp1 hi1 (by rw [P.nch]; exact hn)
      (by rw [P.npix, P.nch, P.params]; exact hc) (by rw [P.npix]; omega)
    have hslot : ∀ j (k : Fin 9), slotAt (encGroup s) j k = slotAt s j k := fun j k => by simp [slotAt, P.nch]
    have hcar : ∀ b, memRead .car b (encGroup s) = memRead .car b s := memRead_of_car P.car P.params
    have hmsg : ∀ b, memRead .msg b (encGroup s) = memRead .msg b s := memRead_of_msg P.msg P.params
    have hbit : ∀ j (k : Fin 9), payloadBit (encGroup s) j k = payloadBit s j k := fun j k => by
      simp [payloadBit, hmsg, P.mlen]
    have hlast : i + (n + 1) - 1 = i + n := by omega
    rw [encLoop]
    refine ⟨Q.npix.trans P.npix, Q.nch.trans P.nch, Q.mlen.trans P.mlen, Q.status.trans P.status,
      Q.params.trans P.params, Q.pending.trans P.pending, Q.reply.trans P.reply, Q.draws.trans P.draws,
      Q.car.trans P.car, Q.msg.trans P.msg, by rw [Q.pxc]; omega, by rw [Q.gix]; omega, ?_, ?_, ?_, ?_, ?_, ?_⟩
    · intro _
      rw [hlast]
      by_cases h0 : n = 0
      · subst h0; rw [encLoop]; exact P.d
      · rw [Q.d (by omega), hmsg, show i + 1 + n - 1 = i + n by omega]
    · intro _
      rw [hlast]
      by_cases h0 : n = 0
      · subst h0; rw [encLoop]; exact P.f
      · rw [Q.f (by omega), hmsg, show i + 1 + n - 1 = i + n by omega]
    · intro _
      by_cases h0 : n = 0
      · subst h0; rw [encLoop]; exact P.m
      · rw [Q.m (by omega), P.mlen, show i + 1 + n = i + (n + 1) by omega]
    · intro _ k
      rw [hlast]
      by_cases h0 : n = 0
      · subst h0; rw [encLoop]; exact P.g k
      · rw [Q.g (by omega), hslot, hbit, hcar, show i + 1 + n - 1 = i + n by omega]
    · intro j h1 h2 k
      by_cases hj : j = i
      · subst hj
        rw [Q.other, P.slot]
        intro j' h1' h2' k' e
        rw [hslot] at e
        have := (slotOffset_inj hn k.isLt k'.isLt e).1
        omega
      · have := Q.slot j (by omega) (by omega) k
        rw [hslot, hbit, hcar] at this
        exact this
    · intro b hb'
      rw [Q.other, P.other]
      · exact fun k => hb' i (le_refl i) (by omega) k
      · intro j h1 h2 k
        rw [hslot]
        exact hb' j (by omega) (by omega) k

/-- What one pass of DEC over group `i` leaves. -/
structure DecPass (s t : State) (i : Nat) : Prop where
  npix : t.npix = s.npix
  nch : t.nch = s.nch
  mlen : t.mlen = s.mlen
  status : t.status = s.status
  params : t.params = s.params
  pending : t.pending = s.pending
  reply : t.reply = s.reply
  draws : t.draws = s.draws
  car : t.car = s.car
  out : t.out = s.out
  pxc : t.pxc = s.pxc + 3
  gix : t.gix = s.gix + 1
  g : t.g = carrierGroup s i
  f : t.f = (readGroup (carrierGroup s i)).1
  d : t.d = (readGroup (carrierGroup s i)).1
  m : t.m = markerReg (readGroup (carrierGroup s i)).2
  byte : i < s.params.msgBytes → memRead .msg i t = (readGroup (carrierGroup s i)).1
  other : ∀ b, b ≠ i → memRead .msg b t = memRead .msg b s

theorem decGroup_pass (s : State) (i : Nat) (hp : s.pxc.toNat = 3 * i) (hi : s.gix.toNat = i) :
    DecPass s (decGroup s) i := by
  have hg : (loadGroup .car s).g = carrierGroup s i := by simp [carrierGroup, slotAt, hp]
  have hf : (readGroup (loadGroup .car s).g).1 = (readGroup (carrierGroup s i)).1 := by rw [hg]
  have hm : (readGroup (loadGroup .car s).g).2 = (readGroup (carrierGroup s i)).2 := by rw [hg]
  refine ⟨by simp [decGroup, storePayload], by simp [decGroup, storePayload], by simp [decGroup, storePayload],
    by simp [decGroup, storePayload], by simp [decGroup, storePayload], by simp [decGroup, storePayload],
    by simp [decGroup, storePayload], by simp [decGroup, storePayload], by simp [decGroup, storePayload],
    by simp [decGroup, storePayload], by simp [decGroup, storePayload], by simp [decGroup, storePayload], ?_, ?_, ?_, ?_, ?_, ?_⟩
  · rw [← hg]; simp [decGroup, storePayload]
  · rw [← hf]; simp only [decGroup, storePayload, advance_f, memWrite_f, applyFrfr_f, applyRdg_f]
  · rw [← hf]; simp only [decGroup, storePayload, advance_d, memWrite_d, applyFrfr_d, applyRdg_f, fromFrame_eq]
  · rw [← hm]; simp only [decGroup, storePayload, advance_m, memWrite_m, applyFrfr_m, applyRdg_m]
  · intro hlt
    have hgx : (applyFrfr (applyRdg (loadGroup .car s))).gix.toNat = i := hi
    have hcap : (applyFrfr (applyRdg (loadGroup .car s))).cap .msg = s.params.msgBytes := rfl
    rw [decGroup, memRead_advance, storePayload, memRead_memWrite, if_pos ⟨rfl, hgx.symm, by rw [hgx, hcap]; exact hlt⟩,
      ← hf]
    simp only [applyFrfr_d, applyRdg_f, fromFrame_eq]
  · intro b hb
    have hgx : (applyFrfr (applyRdg (loadGroup .car s))).gix.toNat = i := hi
    rw [decGroup, memRead_advance, storePayload, memRead_memWrite, if_neg]
    · simp
    · rintro ⟨-, e, -⟩; exact hb (by rw [e, hgx])

/-- The marker of group `i` of the carrier: whether DEC stops there. -/
def stopsAt (s : State) (i : Nat) : Bool := (readGroup (carrierGroup s i)).2

theorem stopsAt_eq (s : State) (i : Nat) : stopsAt s i = parity (memRead .car (slotAt s i 8) s) := by
  exact congrArg parity (carrierGroup_slot s i 8)

/-- What DEC's loop leaves after taking groups `i .. e-1`, whatever it then ends with. -/
structure DecPasses (s t : State) (i e : Nat) : Prop where
  npix : t.npix = s.npix
  nch : t.nch = s.nch
  params : t.params = s.params
  pending : t.pending = s.pending
  reply : t.reply = s.reply
  draws : t.draws = s.draws
  car : t.car = s.car
  out : t.out = s.out
  pxc : t.pxc.toNat = 3 * e
  gix : t.gix.toNat = e
  working : i < e → t.g = carrierGroup s (e - 1) ∧ t.f = (readGroup (carrierGroup s (e - 1))).1
    ∧ t.d = (readGroup (carrierGroup s (e - 1))).1 ∧ t.m = markerReg (stopsAt s (e - 1))
  none : i = e → t.g = s.g ∧ t.f = s.f ∧ t.d = s.d ∧ t.m = s.m
  byte : ∀ j, i ≤ j → j < e → j < s.params.msgBytes → memRead .msg j t = (readGroup (carrierGroup s j)).1
  other : ∀ b, ¬ (i ≤ b ∧ b < e) → memRead .msg b t = memRead .msg b s

/-- DEC's loop from group `i` with `n` groups left: it stops at the first group whose marker is 1, or takes all `n` and
raises UnterminatedMessage (43_orchestration.md R83, R86). -/
theorem decLoop_passes (n : Nat) (s : State) (i : Nat) (hp : s.pxc.toNat = 3 * i) (hi : s.gix.toNat = i)
    (hx : s.npix.toNat / 3 = i + n) :
    (∃ e, i ≤ e ∧ e < i + n ∧ (∀ j, i ≤ j → j < e → stopsAt s j = false) ∧ stopsAt s e = true
      ∧ DecPasses s (decLoop n s) i (e + 1) ∧ (decLoop n s).mlen.toNat = e + 1
      ∧ (decLoop n s).status = s.status.succeeded)
    ∨ ((∀ j, i ≤ j → j < i + n → stopsAt s j = false) ∧ DecPasses s (decLoop n s) i (i + n)
      ∧ (decLoop n s).mlen = s.mlen ∧ (decLoop n s).status = Status.raised .unterminatedMessage) := by
  induction n generalizing s i with
  | zero =>
    refine Or.inr ⟨by intro j h1 h2; omega, ⟨rfl, rfl, rfl, rfl, rfl, rfl, rfl, rfl, ?_, ?_, ?_, ?_, ?_, ?_⟩, rfl, rfl⟩
    · simpa [decLoop] using hp
    · simpa [decLoop] using hi
    · intro h; omega
    · intro _; exact ⟨rfl, rfl, rfl, rfl⟩
    · intro j h1 h2; omega
    · intro b _; simp [decLoop]
  | succ n ih =>
    have hb := s.npix.isLt
    have P := decGroup_pass s i hp hi
    have hp1 : (decGroup s).pxc.toNat = 3 * (i + 1) := by rw [P.pxc, BitVec.toNat_add]; simp; omega
    have hi1 : (decGroup s).gix.toNat = i + 1 := by rw [P.gix, BitVec.toNat_add]; simp; omega
    have hcar : ∀ b, memRead .car b (decGroup s) = memRead .car b s := memRead_of_car P.car P.params
    have hgrp : ∀ j, carrierGroup (decGroup s) j = carrierGroup s j := fun j => by
      simp [carrierGroup, slotAt, hcar, P.nch]
    have hstop : ∀ j, stopsAt (decGroup s) j = stopsAt s j := fun j => by simp [stopsAt, hgrp]
    have hmk : (decGroup s).marker = stopsAt s i := marker_of_bool _ _ P.m
    have hle : ¬ s.npix.toNat < s.pxc.toNat + 3 := by omega
    by_cases hs : stopsAt s i = true
    · refine Or.inl ⟨i, le_refl i, by omega, by intro j h1 h2; omega, hs, ?_⟩
      have hL : decLoop (n + 1) s = decFinish (decGroup s) := by rw [decLoop, if_neg hle, if_pos (hmk.trans hs)]
      rw [hL]
      refine ⟨⟨P.npix, P.nch, P.params, P.pending, P.reply, P.draws, P.car, P.out, hp1, hi1, ?_, ?_, ?_, ?_⟩, hi1, ?_⟩
      · intro _; exact ⟨P.g, P.f, P.d, P.m⟩
      · intro h; omega
      · intro j h1 h2 h3
        obtain rfl : j = i := by omega
        simpa using P.byte h3
      · intro b hb
        have : b ≠ i := by omega
        simpa using P.other b this
      · simp [P.status]
    · have hs' : stopsAt s i = false := by simpa using hs
      have hL : decLoop (n + 1) s = decLoop n (decGroup s) := by
        rw [decLoop, if_neg hle, if_neg (by rw [hmk]; exact hs)]
      rw [hL]
      have conv : ∀ t e, i + 1 ≤ e → DecPasses (decGroup s) t (i + 1) e → DecPasses s t i e := by
        intro t e he D
        refine ⟨D.npix.trans P.npix, D.nch.trans P.nch, D.params.trans P.params, D.pending.trans P.pending,
          D.reply.trans P.reply, D.draws.trans P.draws, D.car.trans P.car, D.out.trans P.out, D.pxc, D.gix, ?_, ?_, ?_, ?_⟩
        · intro _
          by_cases h : i + 1 < e
          · have := D.working h
            simpa [hgrp, hstop] using this
          · obtain rfl : e = i + 1 := by omega
            obtain ⟨h1, h2, h3, h4⟩ := D.none rfl
            simp only [Nat.add_sub_cancel]
            exact ⟨h1.trans P.g, h2.trans P.f, h3.trans P.d, h4.trans P.m⟩
        · intro h; omega
        · intro j h1 h2 h3
          by_cases hj : j = i
          · subst hj
            rw [D.other j (by omega)]
            exact P.byte h3
          · have := D.byte j (by omega) h2 (by rw [P.params]; exact h3)
            rwa [hgrp] at this
        · intro b hb
          rw [D.other b (by omega), P.other b (by omega)]
      rcases ih (decGroup s) (i + 1) hp1 hi1 (by rw [P.npix]; omega) with
        ⟨e, h1, h2, h3, h4, h5, h6, h7⟩ | ⟨h3, h5, h6, h7⟩
      · refine Or.inl ⟨e, by omega, by omega, ?_, (hstop e).symm.trans h4, conv _ _ (by omega) h5, h6, ?_⟩
        · intro j hj1 hj2
          by_cases hj : j = i
          · subst hj; exact hs'
          · exact (hstop j).symm.trans (h3 j (by omega) hj2)
        · rw [h7, P.status]
      · refine Or.inr ⟨?_, ?_, h6.trans P.mlen, h7⟩
        · intro j hj1 hj2
          by_cases hj : j = i
          · subst hj; exact hs'
          · exact (hstop j).symm.trans (h3 j (by omega) (by omega))
        · have := conv _ _ (by omega) h5
          rwa [show i + 1 + n = i + (n + 1) by omega] at this

end Sys2Proof.Machine
end

