-- ==== Sys2Proof/Laws/Contract.lean ====
section
/-! SUPPORT. What the contract functions over images do: the group loop of write in closed form, the group loop of read,
and the image a memory holds. -/

namespace Sys2Proof.Machine

theorem getD_set (l : List Byte) (n o : Nat) (v : Byte) :
    (l.set n v).getD o 0 = if o = n ∧ n < l.length then v else l.getD o 0 := by
  rw [List.getD_eq_getElem?_getD, List.getElem?_set, List.getD_eq_getElem?_getD]
  by_cases h : n = o
  · subst h
    by_cases hl : n < l.length
    · simp [hl]
    · simp [hl]
  · simp [h, Ne.symm h]

/-- Two lists of bytes with one length and the same values are equal. -/
theorem list_ext_getD {a b : List Byte} (hl : a.length = b.length) (h : ∀ o, o < a.length → a.getD o 0 = b.getD o 0) :
    a = b := by
  apply List.ext_getElem hl
  intro o h1 h2
  have := h o h1
  rwa [List.getD_eq_getElem _ _ h1, List.getD_eq_getElem _ _ h2] at this

theorem foldl_set_length (off : Fin 9 → Nat) (v : Fin 9 → Byte) (ks : List (Fin 9)) (l : List Byte) :
    (ks.foldl (fun cs k => cs.set (off k) (v k)) l).length = l.length := by
  induction ks generalizing l with
  | nil => rfl
  | cons k ks ih => rw [List.foldl_cons, ih, List.length_set]

theorem foldl_set_other (off : Fin 9 → Nat) (v : Fin 9 → Byte) (o : Nat) (ks : List (Fin 9)) (l : List Byte)
    (h : ∀ k ∈ ks, o ≠ off k) : (ks.foldl (fun cs k => cs.set (off k) (v k)) l).getD o 0 = l.getD o 0 := by
  induction ks generalizing l with
  | nil => rfl
  | cons k ks ih =>
    rw [List.foldl_cons, ih _ (fun j hj => h j (List.mem_cons_of_mem _ hj)), getD_set, if_neg]
    rintro ⟨e, -⟩
    exact h k List.mem_cons_self e

theorem foldl_set_slot (off : Fin 9 → Nat) (v : Fin 9 → Byte) (ks : List (Fin 9)) (l : List Byte)
    (hinj : ∀ k j, off k = off j → k = j) (k : Fin 9) (hk : k ∈ ks) (hc : off k < l.length) :
    (ks.foldl (fun cs k => cs.set (off k) (v k)) l).getD (off k) 0 = v k := by
  induction ks generalizing l with
  | nil => simp at hk
  | cons j ks ih =>
    rw [List.foldl_cons]
    by_cases hin : k ∈ ks
    · exact ih _ hin (by rw [List.length_set]; exact hc)
    · have hkj : k = j := by simpa [hin] using hk
      subst hkj
      rw [foldl_set_other off v _ ks _ (fun j hj e => hin ((hinj k j e).symm ▸ hj)), getD_set, if_pos ⟨rfl, hc⟩]

theorem setGroup_length (im : Image) (i : Nat) (g : GroupRegs) : (im.setGroup i g).cells.length = im.cells.length :=
  foldl_set_length (fun k => slotOffset im.nch (3 * i) k.val) (fun k => g[k]) slots im.cells

/-- A slot of a replaced group holds the new value. -/
theorem setGroup_slot (im : Image) (i : Nat) (g : GroupRegs) (k : Fin 9) (hn : 3 ≤ im.nch)
    (hc : slotOffset im.nch (3 * i) k.val < im.cells.length) :
    (im.setGroup i g).cells.getD (slotOffset im.nch (3 * i) k.val) 0 = g[k] :=
  foldl_set_slot (fun k => slotOffset im.nch (3 * i) k.val) (fun k => g[k]) slots im.cells
    (fun k j e => Fin.ext (slotOffset_inj hn k.isLt j.isLt e).2) k (mem_slots k) hc

/-- A cell that is no slot of a replaced group keeps its value. -/
theorem setGroup_other (im : Image) (i : Nat) (g : GroupRegs) (o : Nat)
    (h : ∀ k : Fin 9, o ≠ slotOffset im.nch (3 * i) k.val) : (im.setGroup i g).cells.getD o 0 = im.cells.getD o 0 :=
  foldl_set_other (fun k => slotOffset im.nch (3 * i) k.val) (fun k => g[k]) o slots im.cells fun k _ => h k

theorem group_slot (im : Image) (i : Nat) (k : Fin 9) :
    (im.group i)[k.val] = im.cells.getD (slotOffset im.nch (3 * i) k.val) 0 := by simp [Image.group]

/-- The group loop of write in closed form (41_write_path.md R72). -/
theorem writeGroups_closed (fs : List Byte) (ms : List Bool) (im : Image) (i : Nat) (hm : ms.length = fs.length)
    (hn : 3 ≤ im.nch) (hl : im.cells.length = im.npix * im.nch) (hx : 3 * (i + fs.length) ≤ im.npix) :
    (writeGroups i fs ms im).npix = im.npix ∧ (writeGroups i fs ms im).nch = im.nch
    ∧ (writeGroups i fs ms im).cells.length = im.cells.length
    ∧ (∀ j, j < fs.length → ∀ k : Fin 9,
        (writeGroups i fs ms im).cells.getD (slotOffset im.nch (3 * (i + j)) k.val) 0
          = forceParity (im.cells.getD (slotOffset im.nch (3 * (i + j)) k.val) 0)
              (slotBit (fs.getD j 0) (ms.getD j false) k))
    ∧ ∀ o, (∀ j, j < fs.length → ∀ k : Fin 9, o ≠ slotOffset im.nch (3 * (i + j)) k.val) →
        (writeGroups i fs ms im).cells.getD o 0 = im.cells.getD o 0 := by
  induction fs generalizing ms im i with
  | nil => exact ⟨rfl, rfl, rfl, fun j hj => absurd hj (by simp), fun o _ => rfl⟩
  | cons f fs ih =>
    obtain _ | ⟨m, ms⟩ := ms
    · simp at hm
    · simp only [List.length_cons] at hx hm
      have hlen := setGroup_length im i (writeGroup (im.group i) f m)
      obtain ⟨h1, h2, h3, h4, h5⟩ := ih ms (im.setGroup i (writeGroup (im.group i) f m)) (i + 1) (by omega) hn
        (by rw [hlen]; exact hl) (by show 3 * (i + 1 + fs.length) ≤ im.npix; omega)
      have hslot : ∀ k : Fin 9, slotOffset im.nch (3 * i) k.val < im.cells.length := fun k => by
        rw [hl]; exact slotOffset_lt hn k.isLt (by omega)
      refine ⟨h1, h2, h3.trans hlen, ?_, ?_⟩
      · intro j hj k
        rcases Nat.eq_zero_or_pos j with rfl | hj0
        · rw [writeGroups, h5, Nat.add_zero, setGroup_slot im i _ k hn (hslot k), Fin.getElem_fin, writeGroup_slot,
            Fin.getElem_fin, group_slot]
          · rfl
          · intro j' hj' k' e
            have := (slotOffset_inj hn k.isLt k'.isLt e).1
            omega
        · obtain ⟨j, rfl⟩ : ∃ j', j = j' + 1 := ⟨j - 1, by omega⟩
          have hj' : j < fs.length := by simpa using hj
          have := h4 j hj' k
          rw [show i + (j + 1) = i + 1 + j by omega, writeGroups]
          refine this.trans ?_
          show forceParity ((im.setGroup i (writeGroup (im.group i) f m)).cells.getD
            (slotOffset im.nch (3 * (i + 1 + j)) k.val) 0) _ = _
          rw [setGroup_other]
          · rfl
          · intro k' e
            have := (slotOffset_inj hn k.isLt k'.isLt e).1
            omega
      · intro o ho
        rw [writeGroups, h5, setGroup_other]
        · exact fun k => by simpa using ho 0 (by simp) k
        · intro j hj k
          have := ho (j + 1) (by simpa using hj) k
          rwa [show i + (j + 1) = i + 1 + j by omega] at this

theorem markers_length (l : Nat) : (markers l).length = l := by
  induction l using markers.induct with
  | case1 => rfl
  | case2 => rfl
  | case3 n ih => simp [markers, ih]

theorem markers_getD (l i : Nat) (h : i < l) : (markers l).getD i false = decide (i + 1 = l) := by
  induction l using markers.induct generalizing i with
  | case1 => omega
  | case2 => obtain rfl : i = 0 := by omega
             rfl
  | case3 n ih =>
    cases i with
    | zero => simp [markers]
    | succ i =>
      have := ih i (by omega)
      rw [markers, List.getD_cons_succ, this]
      exact decide_eq_decide.mpr (by omega)

/-- The group loop of read: it stops at the first group whose marker is 1, or fails (42_read_path.md R77). -/
theorem readGroups_stops (n i : Nat) (im : Image) :
    (∃ e, i ≤ e ∧ e < i + n ∧ (∀ j, i ≤ j → j < e → (readGroup (im.group j)).2 = false)
      ∧ (readGroup (im.group e)).2 = true
      ∧ readGroups n i im = .ok ((List.range' i (e + 1 - i)).map fun j => fromFrame (readGroup (im.group j)).1))
    ∨ ((∀ j, i ≤ j → j < i + n → (readGroup (im.group j)).2 = false)
      ∧ readGroups n i im = .error .unterminatedMessage) := by
  induction n generalizing i with
  | zero => exact Or.inr ⟨fun j h1 h2 => by omega, rfl⟩
  | succ n ih =>
    by_cases hs : (readGroup (im.group i)).2 = true
    · refine Or.inl ⟨i, le_refl i, by omega, fun j h1 h2 => by omega, hs, ?_⟩
      rw [readGroups, if_pos hs]
      simp
    · have hs' : (readGroup (im.group i)).2 = false := by simpa using hs
      have hbelow : ∀ e, (∀ j, i + 1 ≤ j → j < e → (readGroup (im.group j)).2 = false) →
          ∀ j, i ≤ j → j < e → (readGroup (im.group j)).2 = false := by
        intro e h j h1 h2
        by_cases hj : j = i
        · rw [hj]; exact hs'
        · exact h j (by omega) h2
      rcases ih (i + 1) with ⟨e, h1, h2, h3, h4, h5⟩ | ⟨h3, h5⟩
      · refine Or.inl ⟨e, by omega, by omega, hbelow e h3, h4, ?_⟩
        rw [readGroups, if_neg hs, h5, show e + 1 - i = (e + 1 - (i + 1)) + 1 by omega, List.range'_succ]
        rfl
      · refine Or.inr ⟨hbelow _ (fun j h1 h2 => h3 j h1 (by omega)), ?_⟩
        rw [readGroups, if_neg hs, h5]

/-- A value of the image a memory holds. -/
theorem imageOf_getD (sp : Space) (s : State) (o : Nat) (h : o < imageCells s) :
    (imageOf sp s).cells.getD o 0 = memRead sp o s := by
  have : o < (imageOf sp s).cells.length := by simpa [imageOf] using h
  rw [List.getD_eq_getElem _ _ this]
  simp [imageOf]

theorem imageOf_length (sp : Space) (s : State) : (imageOf sp s).cells.length = imageCells s := by simp [imageOf]

/-- A group of the image in CAR is what LoadGroup loads. -/
theorem imageOf_group (s : State) (i : Nat) (hn : 3 ≤ s.nch.toNat) (hi : 3 * i + 3 ≤ s.npix.toNat) :
    (imageOf .car s).group i = carrierGroup s i := by
  apply Vector.ext
  intro k hk
  have h1 := group_slot (imageOf .car s) i ⟨k, hk⟩
  have h2 := carrierGroup_slot s i ⟨k, hk⟩
  refine h1.trans (Eq.trans ?_ h2.symm)
  exact imageOf_getD .car s _ (slotOffset_lt hn hk hi)

end Sys2Proof.Machine
end

