-- ==== Sys2Proof/Laws/Commands.lean ====
section
/-! SUPPORT. Command acceptance, the checks of ENC and DEC, and what a whole ENC or DEC leaves. -/

namespace Sys2Proof.Machine

theorem accept_accepting (body : State → State) (s : State) (h : s.Accepting) :
    accept body s = .next (runCommand body s) := by
  have : s.status.errf = false := h
  simp [accept, this]

theorem accept_latched (body : State → State) (s : State) (h : s.status.errf = true) : accept body s = .next s := by
  simp [accept, h]

/-- The two ways a command that goes through acceptance ends. -/
theorem accept_cases {body : State → State} {s t : State} (h : accept body s = .next t) :
    (s.status.errf = true ∧ t = s) ∨ (s.Accepting ∧ t = runCommand body s) := by
  unfold accept at h
  split at h
  next he => exact Or.inl ⟨he, by cases h; rfl⟩
  next he => exact Or.inr ⟨by simpa using he, by cases h; rfl⟩

theorem configLegal_iff (s : State) : configLegal s = true ↔ s.ConfigLegal := by
  simp only [configLegal, Bool.and_eq_true, decide_eq_true_eq, and_assoc]
  rfl

theorem configLegal_false_iff (s : State) : configLegal s = false ↔ ¬ s.ConfigLegal := by
  rw [← configLegal_iff]; simp

/-- ENC's checks all pass (43_orchestration.md R82). -/
theorem encError_none_iff (s : State) : encError s = none ↔
    s.ConfigLegal ∧ 1 ≤ s.mlen.toNat ∧ s.mlen.toNat ≤ s.params.msgBytes ∧ 3 * s.mlen.toNat ≤ s.npix.toNat := by
  unfold encError
  split
  next h => exact ⟨fun h' => (by cases h'), fun h' => (by omega)⟩
  next h =>
    split
    next h2 =>
      refine ⟨fun h' => (by cases h'), fun h' => ?_⟩
      rcases h2 with h2 | h2
      · exact absurd h'.1 ((configLegal_false_iff s).1 h2)
      · omega
    next h2 =>
      simp only [not_or, Nat.not_lt, configLegal_false_iff, not_not] at h2
      split
      next h3 => exact ⟨fun h' => (by cases h'), fun h' => (by omega)⟩
      next h3 => exact ⟨fun _ => ⟨h2.1, by omega, h2.2, by omega⟩, fun _ => rfl⟩

theorem decError_none_iff (s : State) : decError s = none ↔ s.ConfigLegal := by
  unfold decError
  rw [← configLegal_iff]
  by_cases h : configLegal s = false
  · simp [h]
  · simp [h]

/-- The checks read nothing that command acceptance writes. -/
@[simp] theorem encError_beginCommand (s : State) : encError (beginCommand s) = encError s := rfl
@[simp] theorem decError_beginCommand (s : State) : decError (beginCommand s) = decError s := rfl

/-- The state ENC's group loop starts from. -/
def encStart (s : State) : State := restartScan (copyCarrier s)

theorem encStart_car (s : State) (o : Nat) : memRead .car o (encStart s) = memRead .car o s := by
  rw [encStart, memRead_restartScan, copyCarrier, memRead_fillCells, if_neg (by simp)]

theorem encStart_msg (s : State) (o : Nat) : memRead .msg o (encStart s) = memRead .msg o s := by
  rw [encStart, memRead_restartScan, copyCarrier, memRead_fillCells, if_neg (by simp)]

/-- The duplicate: OUT equals CAR inside the image and is as it was beyond it (43_orchestration.md R82). -/
theorem encStart_out (s : State) (hc : imageCells s ≤ s.params.pixmemBytes) (o : Nat) :
    memRead .out o (encStart s) = if o < imageCells s then memRead .car o s else memRead .out o s := by
  rw [encStart, memRead_restartScan, copyCarrier, memRead_fillCells]
  by_cases h : o < imageCells s
  · rw [if_pos ⟨rfl, h, lt_of_lt_of_le h hc⟩, if_pos h]
  · rw [if_neg (by simp [h]), if_neg h]

/-- The whole of ENC's loop, from the state ENC found. -/
theorem encRun_passes (s : State) (hc : s.ConfigLegal) (hx : 3 * s.mlen.toNat ≤ s.npix.toNat) :
    EncPasses (encStart s) (encLoop s.mlen.toNat (encStart s)) 0 s.mlen.toNat :=
  encLoop_passes s.mlen.toNat (encStart s) 0 rfl rfl (by simpa [encStart, copyCarrier] using hc.1)
    (by simpa [encStart, copyCarrier] using hc.2.2) (by simpa [encStart, copyCarrier] using hx)

/-- A ready ENC is accepted and runs its loop to the end. -/
theorem exec_enc_ready (s : State) (h : s.EncReady) :
    exec .enc s = .next (endCommand (succeed (encLoop s.mlen.toNat (encStart (beginCommand s))))) := by
  have he : encError (beginCommand s) = none := (encError_none_iff s).2 h.2
  show accept encBody s = _
  rw [accept_accepting _ _ h.1, runCommand, encBody, he]
  rfl

/-- The state DEC's group loop starts from. -/
def decStart (s : State) : State := restartScan { s with mlen := 0 }

/-- A DEC with a legal configuration is accepted and scans. -/
theorem exec_dec_legal (s : State) (ha : s.Accepting) (h : s.ConfigLegal) :
    exec .dec s = .next (endCommand (decLoop (s.npix.toNat / 3) (decStart (beginCommand s)))) := by
  have he : decError (beginCommand s) = none := (decError_none_iff s).2 h
  show accept decBody s = _
  rw [accept_accepting _ _ ha, runCommand, decBody, he]
  rfl

theorem decStart_read (sp : Space) (s : State) (o : Nat) : memRead sp o (decStart s) = memRead sp o s := by
  cases sp <;> rfl

/-- The whole of DEC's scan, from the state DEC found. -/
theorem decRun_passes (s : State) :
    (∃ e, e < s.npix.toNat / 3 ∧ (∀ j, j < e → stopsAt s j = false) ∧ stopsAt s e = true
      ∧ DecPasses (decStart s) (decLoop (s.npix.toNat / 3) (decStart s)) 0 (e + 1)
      ∧ (decLoop (s.npix.toNat / 3) (decStart s)).mlen.toNat = e + 1
      ∧ (decLoop (s.npix.toNat / 3) (decStart s)).status = s.status.succeeded)
    ∨ ((∀ j, j < s.npix.toNat / 3 → stopsAt s j = false)
      ∧ DecPasses (decStart s) (decLoop (s.npix.toNat / 3) (decStart s)) 0 (s.npix.toNat / 3)
      ∧ (decLoop (s.npix.toNat / 3) (decStart s)).mlen = 0
      ∧ (decLoop (s.npix.toNat / 3) (decStart s)).status = Status.raised .unterminatedMessage) := by
  have hstop : ∀ j, stopsAt (decStart s) j = stopsAt s j := fun _ => rfl
  rcases decLoop_passes (s.npix.toNat / 3) (decStart s) 0 rfl rfl (by simp [decStart]) with
    ⟨e, -, h2, h3, h4, h5, h6, h7⟩ | ⟨h3, h5, h6, h7⟩
  · exact Or.inl ⟨e, by omega, fun j hj => h3 j (Nat.zero_le j) hj, h4, h5, h6, h7⟩
  · refine Or.inr ⟨fun j hj => h3 j (Nat.zero_le j) (by omega), ?_, h6, h7⟩
    rwa [Nat.zero_add] at h5

/-! ### FPAR by its operand -/

theorem exec_fpar_legal (a : BitVec 4) (w : Bool) (s : State) (h : a.toNat ≤ 8) :
    exec (.fpar a w) s = accept (applyFpar ⟨a.toNat, by omega⟩ w) s := by
  simp [exec, execFpar, groupIndex_of_le a h]

theorem exec_fpar_illegal (a : BitVec 4) (w : Bool) (s : State) (h : ¬ a.toNat ≤ 8) :
    exec (.fpar a w) s = .next (illegalWord s) := by
  simp [exec, execFpar, groupIndex_of_gt a (by omega)]

/-! ### What ENC and DEC keep -/

theorem encLoop_keeps {α : Type} (φ : State → α) (h : ∀ s, φ (encGroup s) = φ s) (n : Nat) (s : State) :
    φ (encLoop n s) = φ s := by
  induction n generalizing s with
  | zero => rfl
  | succ n ih => rw [encLoop, ih, h]

/-- What every part of ENC leaves alone, ENC leaves alone. -/
theorem encBody_keeps {α : Type} (φ : State → α) (h1 : ∀ s, φ (encGroup s) = φ s) (h2 : ∀ k s, φ (raise k s) = φ s)
    (h3 : ∀ s, φ (succeed s) = φ s) (h4 : ∀ s, φ (restartScan s) = φ s) (h5 : ∀ s, φ (copyCarrier s) = φ s) (s : State) :
    φ (encBody s) = φ s := by
  unfold encBody
  split
  · exact h2 _ _
  · rw [encRun, h3, encLoop_keeps φ h1, h4, h5]

theorem decLoop_keeps {α : Type} (φ : State → α) (h1 : ∀ s, φ (decGroup s) = φ s) (h2 : ∀ k s, φ (raise k s) = φ s)
    (h3 : ∀ s, φ (decFinish s) = φ s) (n : Nat) (s : State) : φ (decLoop n s) = φ s := by
  induction n generalizing s with
  | zero => exact h2 _ _
  | succ n ih =>
    rw [decLoop]
    split
    · exact h2 _ _
    · split
      · rw [h3, h1]
      · rw [ih, h1]

/-- What every part of DEC leaves alone, DEC leaves alone. -/
theorem decBody_keeps {α : Type} (φ : State → α) (h1 : ∀ s, φ (decGroup s) = φ s) (h2 : ∀ k s, φ (raise k s) = φ s)
    (h3 : ∀ s, φ (decFinish s) = φ s) (h4 : ∀ s : State, φ (restartScan { s with mlen := 0 }) = φ s) (s : State) :
    φ (decBody s) = φ s := by
  unfold decBody
  split
  · exact h2 _ _
  · rw [decRun, decLoop_keeps φ h1 h2 h3, h4]

/-! ### What a whole ENC or DEC leaves, in the terms of the claims -/

theorem payloadBit_eq_encBit (s : State) (i : Nat) (k : Fin 9) (h : i < s.mlen.toNat) :
    payloadBit s i k = encBit s i k := by
  unfold payloadBit encBit slotBit
  have := k.isLt
  by_cases hk : k.val < 8
  · rw [if_pos hk, if_pos (by omega), toFrame, frameBit_packBits _ _ hk]
  · rw [if_neg hk, if_neg (by omega)]
    exact decide_eq_decide.mpr (by omega)

/-- The group DEC stops at, in the loop's terms. -/
theorem stopGroup_iff (s : State) (i : Nat) : StopGroup s i ↔ i < s.npix.toNat / 3 ∧ stopsAt s i = true := by
  rw [stopsAt_eq, parity_iff]
  constructor
  · rintro ⟨h1, h2⟩; exact ⟨by omega, h2⟩
  · rintro ⟨h1, h2⟩; exact ⟨by omega, h2⟩

theorem toNat_readGroup_carrier (s : State) (i : Nat) : ((readGroup (carrierGroup s i)).1).toNat = groupByte s i := by
  rw [toNat_readGroup]
  unfold groupByte
  apply Finset.sum_congr rfl
  intro j hj
  have hj' : j < 9 := by simp at hj; omega
  rw [dif_pos hj']
  have := carrierGroup_slot s i ⟨j, hj'⟩
  simp only at this
  rw [this]; rfl

/-- What a ready ENC leaves. -/
structure EncDone (s t : State) : Prop where
  slot : ∀ i, i < s.mlen.toNat → ∀ k : Fin 9,
    memRead .out (slotAt s i k) t = forceParity (memRead .car (slotAt s i k) s) (payloadBit s i k)
  other : ∀ o, (∀ i, i < s.mlen.toNat → ∀ k : Fin 9, o ≠ slotAt s i k) →
    memRead .out o t = if o < imageCells s then memRead .car o s else memRead .out o s
  pxc : t.pxc.toNat = 3 * s.mlen.toNat
  gix : t.gix.toNat = s.mlen.toNat
  d : t.d = memRead .msg (s.mlen.toNat - 1) s
  f : t.f = memRead .msg (s.mlen.toNat - 1) s
  m : t.m = 1
  g : ∀ k : Fin 9, t.g[k]
    = forceParity (memRead .car (slotAt s (s.mlen.toNat - 1) k) s) (payloadBit s (s.mlen.toNat - 1) k)
  npix : t.npix = s.npix
  nch : t.nch = s.nch
  mlen : t.mlen = s.mlen
  own : SameOwn s t
  car : t.car = s.car
  msg : t.msg = s.msg
  status : t.status = statusAfterSuccess s

/-- A ready ENC answers a next state, and what that state holds. -/
theorem exec_enc_done (s : State) (h : s.EncReady) : ∃ t, exec .enc s = .next t ∧ EncDone s t := by
  refine ⟨_, exec_enc_ready s h, ?_⟩
  obtain ⟨ha, hc, h1, h2, h3⟩ := h
  have P := encRun_passes (beginCommand s) hc h3
  have e1 : ∀ i (k : Fin 9), payloadBit (encStart (beginCommand s)) i k = payloadBit s i k := fun i k => by
    simp only [payloadBit, encStart_msg, memRead_beginCommand]
    simp [encStart, copyCarrier]
  have e2 : ∀ i k, slotAt (encStart (beginCommand s)) i k = slotAt s i k := fun i k => by
    simp [slotAt, encStart, copyCarrier]
  have e3 : (encStart (beginCommand s)).mlen = s.mlen := by simp [encStart, copyCarrier]
  have hm0 : 0 < s.mlen.toNat := by omega
  simp only [beginCommand_mlen] at P
  constructor
  · intro i hi k
    have := P.slot i (Nat.zero_le _) (by omega) k
    rwa [e2, encStart_car, e1] at this
  · intro o ho
    rw [memRead_endCommand, memRead_succeed, P.other o, encStart_out (beginCommand s) hc.2.2]
    · simp; rfl
    · intro j _ hj k
      rw [e2]
      exact ho j (by omega) k
  · exact P.pxc.trans (by omega)
  · exact P.gix.trans (by omega)
  · exact (P.d hm0).trans (by rw [encStart_msg, Nat.zero_add]; simp)
  · exact (P.f hm0).trans (by rw [encStart_msg, Nat.zero_add]; simp)
  · exact (P.m hm0).trans (by rw [e3]; simp; rfl)
  · intro k
    have := P.g hm0 k
    rwa [Nat.zero_add, e2, e1, encStart_car] at this
  · exact P.npix.trans (by simp [encStart, copyCarrier])
  · exact P.nch.trans (by simp [encStart, copyCarrier])
  · exact P.mlen.trans (by simp [encStart, copyCarrier])
  · exact ⟨P.params.trans (by simp [encStart, copyCarrier]), P.pending.trans (by simp [encStart, copyCarrier]),
      P.reply.trans (by simp [encStart, copyCarrier]), P.draws.trans (by simp [encStart, copyCarrier])⟩
  · exact P.car.trans (by simp [encStart, copyCarrier])
  · exact P.msg.trans (by simp [encStart, copyCarrier])
  · show Status.ended (Status.succeeded (encLoop s.mlen.toNat (encStart (beginCommand s))).status) = _
    rw [P.status]
    simp [encStart, copyCarrier, statusAfterSuccess, Status.ended, Status.succeeded, Status.accepted]

/-- With parameters within R9 every group of a legal image has a cell of MSG (00_scope.md R9 (d)). -/
theorem group_lt_msgBytes (s : State) (hp : s.params.Ok) (hc : s.ConfigLegal) (i : Nat) (hi : i < s.npix.toNat / 3) :
    i < s.params.msgBytes := by
  have h3 := hp.2.2.2
  have h4 := hc.2.2
  have h6 : s.npix.toNat * 3 ≤ s.npix.toNat * s.nch.toNat := Nat.mul_le_mul_left _ hc.1
  omega

/-- DEC on a legal image with a stop group answers a next state; what its scan left. -/
theorem exec_dec_stop (s : State) (n : Nat) (hp : s.params.Ok) (ha : s.Accepting) (hc : s.ConfigLegal)
    (h1 : StopGroup s n) (h2 : ∀ j, j < n → ¬ StopGroup s j) :
    ∃ t, exec .dec s = .next t ∧ DecPasses (decStart (beginCommand s)) t 0 (n + 1) ∧ t.mlen.toNat = n + 1
      ∧ t.status = statusAfterSuccess s ∧ ∀ i, i ≤ n → memRead .msg i t = (readGroup (carrierGroup s i)).1 := by
  refine ⟨_, exec_dec_legal s ha hc, ?_⟩
  rw [stopGroup_iff] at h1
  rcases decRun_passes (beginCommand s) with ⟨e, q1, q2, q3, q4, q5, q6⟩ | ⟨q2, -⟩
  · have he : e = n := by
      rcases Nat.lt_trichotomy e n with h | h | h
      · exact absurd ((stopGroup_iff s e).2 ⟨q1, q3⟩) (h2 e h)
      · exact h
      · have : stopsAt s n = false := q2 n h
        rw [this] at h1; simp at h1
    subst he
    refine ⟨⟨q4.1, q4.2, q4.3, q4.4, q4.5, q4.6, q4.7, q4.8, q4.9, q4.10, q4.11, q4.12, ?_, ?_⟩, q5, ?_, ?_⟩
    · intro j a b c; rw [memRead_endCommand]; exact q4.13 j a b c
    · intro b hb; rw [memRead_endCommand]; exact q4.14 b hb
    · have q6' : (decLoop (s.npix.toNat / 3) (decStart (beginCommand s))).status = _ := q6
      show Status.ended (decLoop (s.npix.toNat / 3) (decStart (beginCommand s))).status = _
      rw [q6']; rfl
    · intro i hi
      rw [memRead_endCommand]
      have q1' : e < s.npix.toNat / 3 := q1
      exact q4.byte i (Nat.zero_le _) (by omega) (group_lt_msgBytes s hp hc i (by omega))
  · exact absurd h1.2 (by rw [show stopsAt s n = false from q2 n h1.1]; simp)

/-- DEC on a legal image with no stop group answers a next state; what its scan left. -/
theorem exec_dec_noStop (s : State) (ha : s.Accepting) (hc : s.ConfigLegal) (h2 : ∀ j, ¬ StopGroup s j) :
    ∃ t, exec .dec s = .next t ∧ DecPasses (decStart (beginCommand s)) t 0 (s.npix.toNat / 3) ∧ t.mlen = 0
      ∧ t.status = statusOfError 3 := by
  refine ⟨_, exec_dec_legal s ha hc, ?_⟩
  rcases decRun_passes (beginCommand s) with ⟨e, q1, q2, q3, -⟩ | ⟨q2, q4, q5, q6⟩
  · exact absurd ((stopGroup_iff s e).2 ⟨q1, q3⟩) (h2 e)
  · refine ⟨⟨q4.1, q4.2, q4.3, q4.4, q4.5, q4.6, q4.7, q4.8, q4.9, q4.10, q4.11, q4.12, ?_, ?_⟩, q5, ?_⟩
    · intro j a b c; rw [memRead_endCommand]; exact q4.13 j a b c
    · intro b hb; rw [memRead_endCommand]; exact q4.14 b hb
    · have q6' : (decLoop (s.npix.toNat / 3) (decStart (beginCommand s))).status = _ := q6
      show Status.ended (decLoop (s.npix.toNat / 3) (decStart (beginCommand s))).status = _
      rw [q6']; rfl

/-! ### The cells ENC and DEC do not reach, whatever state they are issued in -/

/-- A ready ENC's slots lie inside the image (20_memory.md R43). -/
theorem slotAt_lt_imageCells (s : State) (h : s.EncReady) (i k : Nat) (hi : i < s.mlen.toNat) (hk : k < 9) :
    slotAt s i k < imageCells s :=
  slotOffset_lt h.2.1.1 hk (by have := h.2.2.2.2; omega)

/-- What ENC can do: it is dropped, a check fails and STATUS alone changes, or it is ready and done
(43_orchestration.md R82). -/
theorem exec_enc_cases {s t : State} (h : exec .enc s = .next t) :
    t = s ∨ (∃ st, t = { s with status := st }) ∨ (s.EncReady ∧ EncDone s t) := by
  rcases accept_cases h with ⟨-, rfl⟩ | ⟨ha, rfl⟩
  · exact Or.inl rfl
  · rcases he : encError s with _ | k
    · have hr : s.EncReady := ⟨ha, (encError_none_iff s).1 he⟩
      obtain ⟨u, hu, hd⟩ := exec_enc_done s hr
      rw [hu] at h
      cases h
      exact Or.inr (Or.inr ⟨hr, hd⟩)
    · refine Or.inr (Or.inl ⟨(Status.raised k).ended, ?_⟩)
      rw [runCommand, encBody, encError_beginCommand, he]
      rfl

/-- ENC leaves every cell of OUT beyond the image (20_memory.md R33, R41). -/
theorem exec_enc_out_beyond {s t : State} (h : exec .enc s = .next t) (o : Nat) (ho : s.npix.toNat * s.nch.toNat ≤ o) :
    memRead .out o t = memRead .out o s := by
  rcases exec_enc_cases h with rfl | ⟨st, rfl⟩ | ⟨hr, hd⟩
  · rfl
  · rfl
  · rw [hd.other o, if_neg (by unfold imageCells; omega)]
    intro i hi k e
    have h1 : slotAt s i k < imageCells s := slotAt_lt_imageCells s hr i k hi k.isLt
    unfold imageCells at h1
    omega

/-- DEC leaves every cell of MSG at and beyond the number of groups it read (20_memory.md R41). -/
theorem exec_dec_msg_beyond {s t : State} (h : exec .dec s = .next t) (o : Nat) (ho : t.gix.toNat ≤ o) :
    memRead .msg o t = memRead .msg o s := by
  rcases accept_cases h with ⟨-, rfl⟩ | ⟨ha, rfl⟩
  · rfl
  · by_cases hc : s.ConfigLegal
    · rw [exec_dec_legal s ha hc] at h
      injection h with h
      rw [← h] at ho ⊢
      rw [memRead_endCommand]
      have key : ∀ e, DecPasses (decStart (beginCommand s)) (decLoop (s.npix.toNat / 3) (decStart (beginCommand s))) 0 e →
          memRead .msg o (decLoop (s.npix.toNat / 3) (decStart (beginCommand s))) = memRead .msg o s := fun e P => by
        have hx : e ≤ o := P.gix ▸ ho
        exact (P.other o (by omega)).trans (by simp [decStart_read])
      rcases decRun_passes (beginCommand s) with ⟨e, -, -, -, P, -⟩ | ⟨-, P, -⟩
      · exact key _ P
      · exact key _ P
    · have he : decError (beginCommand s) = some .badConfig := by
        rw [decError_beginCommand, decError, if_pos ((configLegal_false_iff s).2 hc)]
      rw [runCommand, decBody, he]
      simp

/-! ### The canonical form of memories, across the loops -/

theorem memOk_advance (s : State) (h : s.MemOk) : (advance s).MemOk := h

theorem memOk_encGroup (s : State) (h : s.MemOk) : (encGroup s).MemOk := by
  rw [encGroup]
  exact memOk_advance _ (memOk_storeGroup .out _ h)

theorem memOk_encLoop (n : Nat) (s : State) (h : s.MemOk) : (encLoop n s).MemOk := by
  induction n generalizing s with
  | zero => exact h
  | succ n ih => exact ih _ (memOk_encGroup s h)

theorem memOk_decGroup (s : State) (h : s.MemOk) : (decGroup s).MemOk := by
  rw [decGroup, storePayload]
  exact memOk_advance _ (memOk_memWrite .msg _ _ _ h)

theorem memOk_decLoop (n : Nat) (s : State) (h : s.MemOk) : (decLoop n s).MemOk := by
  induction n generalizing s with
  | zero => exact h
  | succ n ih =>
    rw [decLoop]
    split
    · exact h
    · split
      · exact memOk_decGroup s h
      · exact ih _ (memOk_decGroup s h)

end Sys2Proof.Machine
end

