-- ==== Sys2Proof/Laws/Step.lean ====
section
/-! SUPPORT. What one step can do, said once. -/

namespace Sys2Proof.Machine

/-- A step that answers a next state waits, or performs the host's next action on the state with it taken off. -/
theorem step_cases {s t : State} (h : step s = .next t) :
    (s.pending = [] ∧ t = s)
    ∨ ∃ a rest, s.pending = a :: rest ∧ (s.status.busy = false ∨ allowedWhileBusy a = true)
        ∧ hostAct a { s with pending := rest } = .next t := by
  unfold step hostStep at h
  split at h
  next hp => exact Or.inl ⟨hp, by cases h; rfl⟩
  next a rest hp =>
    split at h
    · cases h
    next hb =>
      refine Or.inr ⟨a, rest, hp, ?_, h⟩
      by_cases hbusy : s.status.busy = true
      · exact Or.inr (by simpa [hbusy] using hb)
      · exact Or.inl (by simpa using hbusy)

/-- With BUSY = 0 a step performs the host's next action. -/
theorem step_of_pending {s : State} {a : HostAction} {rest : List HostAction} (hp : s.pending = a :: rest)
    (hb : s.status.busy = false) : step s = hostAct a { s with pending := rest } := by
  simp [step, hostStep, hp, hb]

theorem hostAct_cmd (x : Word) (s : State) : hostAct (.wreg 0 x) s = issue x s := rfl

/-- Issuing a word whose command is known. -/
theorem issue_ok {x : Word} {i : Instr} (h : decode (commandWord x) = .ok i) (s : State) : issue x s = exec i s := by
  simp [issue, h]

/-- Issuing an illegal word. -/
theorem issue_error {x : Word} {e : IllegalWord} (h : decode (commandWord x) = .error e) (s : State) :
    issue x s = .next (illegalWord s) := by
  simp [issue, h]

/-- A command cut short leaves the model's own fields, and every byte it could not have written
(70_reset_and_hazards.md R105). -/
theorem cutShort_keeps (i : Instr) (s : State) :
    (cutShort i s).params = s.params ∧ (cutShort i s).pending = s.pending ∧ (cutShort i s).reply = s.reply
    ∧ (cutShort i s).draws = s.draws
    ∧ ∀ sp o, ¬ (sp = .out ∧ i = .enc ∧ s.EncReady ∧ o < s.npix.toNat * s.nch.toNat) →
        ¬ (sp = .msg ∧ i = .dec ∧ s.Accepting ∧ s.ConfigLegal ∧ o < s.npix.toNat / 3) →
        memRead sp o (cutShort i s) = memRead sp o s := by
  cases i with
  | enc =>
    by_cases hc : s.status.errf = false ∧ encError s = none
    · rw [cutShort, if_pos hc]
      refine ⟨by simp [scramble], by simp [scramble], by simp [scramble], by simp [scramble], fun sp o h _ => ?_⟩
      exact memRead_scramble_of_not _ _ _ _ _ _ fun e => h ⟨e.1, rfl, ⟨hc.1, (encError_none_iff s).1 hc.2⟩, e.2⟩
    · rw [cutShort, if_neg hc]; exact ⟨rfl, rfl, rfl, rfl, fun _ _ _ _ => rfl⟩
  | dec =>
    by_cases hc : s.status.errf = false ∧ decError s = none
    · rw [cutShort, if_pos hc]
      refine ⟨by simp [scramble], by simp [scramble], by simp [scramble], by simp [scramble], fun sp o _ h => ?_⟩
      exact memRead_scramble_of_not _ _ _ _ _ _ fun e => h ⟨e.1, rfl, hc.1, (decError_none_iff s).1 hc.2, e.2⟩
    · rw [cutShort, if_neg hc]; exact ⟨rfl, rfl, rfl, rfl, fun _ _ _ _ => rfl⟩
  | nop => exact ⟨rfl, rfl, rfl, rfl, fun _ _ _ _ => rfl⟩
  | tofr => exact ⟨rfl, rfl, rfl, rfl, fun _ _ _ _ => rfl⟩
  | frfr => exact ⟨rfl, rfl, rfl, rfl, fun _ _ _ _ => rfl⟩
  | fpar a w => exact ⟨rfl, rfl, rfl, rfl, fun _ _ _ _ => rfl⟩
  | wrg => exact ⟨rfl, rfl, rfl, rfl, fun _ _ _ _ => rfl⟩
  | rdg => exact ⟨rfl, rfl, rfl, rfl, fun _ _ _ _ => rfl⟩
  | clr => exact ⟨rfl, rfl, rfl, rfl, fun _ _ _ _ => rfl⟩

theorem memOk_cutShort (i : Instr) (s : State) (h : s.MemOk) : (cutShort i s).MemOk := by
  cases i <;> simp only [cutShort] <;> (try split) <;> first | exact h | exact memOk_scramble _ _ _ _ h

end Sys2Proof.Machine
end

