-- ==== Sys2Proof/Laws/Decode.lean ====
section
/-! SUPPORT. A word by its four fields, and what the decoder's field readers give on it. -/

namespace Sys2Proof

open Sys2Proof.Machine

/-- The field readers read back the fields a word is made of (30_encoding.md R54). -/
theorem fields_wordOf (op a z w : Nat) (h1 : op < 16) (h2 : a < 16) (h3 : z < 128) (h4 : w < 2) :
    opField (wordOf op a z w) = BitVec.ofNat 4 op ∧ aField (wordOf op a z w) = BitVec.ofNat 4 a
    ∧ zField (wordOf op a z w) = BitVec.ofNat 7 z ∧ wField (wordOf op a z w) = decide (w = 1)
    ∧ operandBits (wordOf op a z w) = BitVec.ofNat 12 (256 * a + 2 * z + w) := by
  have hn : (wordOf op a z w).toNat = 4096 * op + 256 * a + 2 * z + w := by
    simp [wordOf]; omega
  refine ⟨?_, ?_, ?_, ?_, ?_⟩
  · apply BitVec.eq_of_toNat_eq
    simp [opField, hn, Nat.shiftRight_eq_div_pow]; omega
  · apply BitVec.eq_of_toNat_eq
    simp [aField, hn, Nat.shiftRight_eq_div_pow]; omega
  · apply BitVec.eq_of_toNat_eq
    simp [zField, hn, Nat.shiftRight_eq_div_pow]; omega
  · rw [wField, BitVec.getLsbD, hn, Nat.testBit_zero]
    exact decide_eq_decide.mpr (by omega)
  · apply BitVec.eq_of_toNat_eq
    simp [operandBits, hn]; omega

/-- Every word is made of its four fields (30_encoding.md R54). -/
theorem exists_wordOf (c : CommandWord) : ∃ op a z w, op < 16 ∧ a < 16 ∧ z < 128 ∧ w < 2 ∧ c = wordOf op a z w
    ∧ op = c.toNat / 4096 ∧ a = c.toNat / 256 % 16 ∧ z = c.toNat / 2 % 128 ∧ w = c.toNat % 2 := by
  have := c.isLt
  refine ⟨c.toNat / 4096, c.toNat / 256 % 16, c.toNat / 2 % 128, c.toNat % 2, by omega, by omega, by omega, by omega, ?_,
    rfl, rfl, rfl, rfl⟩
  apply BitVec.eq_of_toNat_eq
  simp [wordOf]; omega

/-- A word with an opcode other than FPAR's and a nonzero operand bit is illegal (30_encoding.md R57). -/
theorem decode_error_of_operandBits (c : CommandWord) (h3 : c.toNat / 4096 ≠ 3) (h0 : c.toNat % 4096 ≠ 0) :
    decode c = .error .reservedBits := by
  have hc := c.isLt
  have h4 : opField c ≠ 3#4 := by
    intro e
    have := congrArg BitVec.toNat e
    simp [opField, Nat.shiftRight_eq_div_pow] at this; omega
  have h5 : operandBits c ≠ 0#12 := by
    intro e
    have := congrArg BitVec.toNat e
    simp [operandBits] at this; omega
  simp [decode, h4, h5]

end Sys2Proof
end

