-- ==== Sys2Proof/Laws/PerInstr.lean ====
section
/-! SUPPORT. Statements about every command as syntax, one lemma per constructor. -/

namespace Sys2Proof.Laws.EncodeLegal

open Sys2Proof Sys2Proof.Machine

/-- The word of a well-formed command is one of the legal words (30_encoding.md R57). -/
def Statement (i : Instr) : Prop := i.wellFormed = true → LegalWord (encode i)

theorem nop : Statement .nop := fun _ => Or.inl (by decide)
theorem tofr : Statement .tofr := fun _ => Or.inl (by decide)
theorem frfr : Statement .frfr := fun _ => Or.inl (by decide)
theorem fpar (a : BitVec 4) (w : Bool) : Statement (.fpar a w) := by
  intro h
  refine Or.inr ?_
  revert h
  revert a w
  decide
theorem wrg : Statement .wrg := fun _ => Or.inl (by decide)
theorem rdg : Statement .rdg := fun _ => Or.inl (by decide)
theorem enc : Statement .enc := fun _ => Or.inl (by decide)
theorem dec : Statement .dec := fun _ => Or.inl (by decide)
theorem clr : Statement .clr := fun _ => Or.inl (by decide)

end Sys2Proof.Laws.EncodeLegal
end

