-- ==== Sys2Proof/Tests/Slice0.lean ====
section
/-! SUPPORT. Tests of the model against the spec's own vectors (95_test_vectors.md), and for every obligation with
hypotheses a witness that meets them. Every expected value is the spec's. -/

namespace Sys2Proof.Tests

open Sys2Proof Sys2Proof.Machine

/-! ### Helpers -/

/-- Bytes written to a memory from offset `n` on. -/
def load (sp : Space) : Nat → List Byte → State → State
  | _, [], s => s
  | n, b :: bs, s => load sp (n + 1) bs (memWrite sp n b s)

/-- The next state of an outcome, and the reset state where there is none. -/
def nextOf (o : Host.Outcome State Fault Refusal) : State :=
  match o with
  | .next s => s
  | .fault _ => State.reset
  | .refused _ => State.reset

/-- Program P1 of 95_test_vectors.md before its ENC. -/
def hi : State :=
  load .msg 0 [0x48, 0x69] (load .car 0 [0, 0, 0, 255, 255, 255, 10, 11, 12, 0, 1, 2, 254, 255, 128, 37, 64, 200]
    { State.reset with npix := 6, mlen := 2 })

/-- Program P1 after COPYOUT and `WMEM MSG[0], 0 0`. -/
def hiEncoded : State :=
  load .msg 0 [0, 0] (load .car 0 [0, 1, 0, 254, 255, 254, 10, 10, 12, 0, 1, 1, 254, 255, 128, 36, 63, 199]
    { State.reset with npix := 6, mlen := 2 })

/-- Program P2 before its ENC: four channels, seven pixels. -/
def alpha : State :=
  load .msg 0 [0xFF] (load .car 0 [2, 4, 6, 200, 8, 0, 1, 201, 3, 5, 100, 202, 7, 7, 7, 203, 9, 9, 9, 204, 11, 11, 11, 205,
    13, 13, 13, 206] { State.reset with npix := 7, nch := 4, mlen := 1 })

/-- Vector V-DEC-4: an image nobody encoded. -/
def raw : State :=
  load .car 0 [10, 20, 30, 40, 50, 60, 70, 80, 90, 1, 2, 3, 4, 5, 6, 7, 8, 9] { State.reset with npix := 6 }

/-- Vector V-DEC-1: two groups, no odd byte. -/
def evens : State := load .car 0 (List.replicate 18 2) { State.reset with npix := 6 }

/-- A state in which CarrierTooSmall is latched. -/
def latched : State := { hi with status := statusOfError 2 }

/-- A state with a command executing. -/
def busy : State := { hi with status := { hi.status with busy := true } }

/-- The reset state with given group registers. -/
def withG (g : GroupRegs) : State := { State.reset with g := g }

/-! ### Well-formedness and decoding -/

/-- 30_encoding.md R57: FPAR's index is 0 to 8. -/
theorem test_wellFormed_refuses_index_nine : (Instr.fpar 9#4 true).wellFormed = false := by decide
theorem test_wellFormed_refuses_index_fifteen : (Instr.fpar 15#4 false).wellFormed = false := by decide
theorem test_wellFormed_accepts_index_eight : (Instr.fpar 8#4 false).wellFormed = true := by decide

/-- 30_encoding.md R55: each command's word, its fields op, a, z, w written out bit by bit. -/
theorem test_decode_nop : decode 0b0000_0000_0000000_0#16 = .ok .nop := by decide
theorem test_decode_tofr : decode 0b0001_0000_0000000_0#16 = .ok .tofr := by decide
theorem test_decode_frfr : decode 0b0010_0000_0000000_0#16 = .ok .frfr := by decide
theorem test_decode_fpar : decode 0b0011_0110_0000000_1#16 = .ok (.fpar 6#4 true) := by decide
theorem test_decode_fpar_even : decode 0b0011_1000_0000000_0#16 = .ok (.fpar 8#4 false) := by decide
theorem test_decode_wrg : decode 0b0100_0000_0000000_0#16 = .ok .wrg := by decide
theorem test_decode_rdg : decode 0b0101_0000_0000000_0#16 = .ok .rdg := by decide
theorem test_decode_enc : decode 0b0110_0000_0000000_0#16 = .ok .enc := by decide
theorem test_decode_dec : decode 0b0111_0000_0000000_0#16 = .ok .dec := by decide
theorem test_decode_clr : decode 0b1000_0000_0000000_0#16 = .ok .clr := by decide

/-- Vectors V-CMD: illegal words, each refused by its name. -/
theorem test_decode_refuses_group_index :
    decode 0x3900#16 = .error .groupIndex ∧ decode 0x3F01#16 = .error .groupIndex := by decide
theorem test_decode_refuses_reserved_bits :
    decode 0x3102#16 = .error .reservedBits ∧ decode 0x3180#16 = .error .reservedBits
    ∧ decode 0x6001#16 = .error .reservedBits ∧ decode 0x0001#16 = .error .reservedBits
    ∧ decode 0x8100#16 = .error .reservedBits ∧ decode 0x1F00#16 = .error .reservedBits
    ∧ decode 0xFFFF#16 = .error .reservedBits := by decide
theorem test_decode_refuses_reserved_opcode :
    decode 0x9000#16 = .error .reservedOpcode ∧ decode 0xA000#16 = .error .reservedOpcode := by decide

/-- 30_encoding.md R55 and its example words. -/
theorem test_encode_fpar : encode (.fpar 1#4 true) = 0x3101#16 ∧ encode (.fpar 8#4 true) = 0x3801#16 := by decide

/-- The host's numbering: one 16-bit word. -/
theorem test_decodeTableWord : decodeTableWord 16 0x3801 = some (.fpar 8#4 true) ∧ decodeTableWord 16 0x9000 = none := by
  decide

/-! ### One command each -/

/-- 10_state.md R21, 44_system.md R89: NOP after a successful ENC keeps STATUS 0x02. -/
theorem test_nop_keeps_done :
    (nextOf (exec .nop { hi with status := statusAfterSuccess hi })).status.toByte = 0x02#8 := by decide

/-- Vector V-FR: D = 0xA5 gives the frame 1,0,1,0,0,1,0,1. -/
theorem test_tofr_a5 :
    (List.range 8).map (frameBit (nextOf (exec .tofr { State.reset with d := 0xA5#8 })).f)
      = [true, false, true, false, false, true, false, true] := by decide

/-- Vector V-FR: F = 0x05 gives D = 0x05; V-ERR: a primitive clears DONE. -/
theorem test_frfr_05 :
    (nextOf (exec .frfr { State.reset with f := 0x05#8, status := statusAfterSuccess State.reset })).d = 0x05#8
    ∧ (nextOf (exec .frfr { State.reset with f := 0x05#8, status := statusAfterSuccess State.reset })).status.toByte
      = 0x00#8 := by decide

/-- Vectors V-FP: `FPAR 1, 1` on G1 = 0. -/
theorem test_fpar_raises_zero : (nextOf (exec (.fpar 1#4 true) (withG #v[0, 0, 0, 0, 0, 0, 0, 0, 0]))).g
    = #v[0, 1, 0, 0, 0, 0, 0, 0, 0] := by decide

/-- Vectors V-FP: `FPAR 8, 1` on G8 = 12. -/
theorem test_fpar_lowers_twelve : (nextOf (exec (.fpar 8#4 true) (withG #v[0, 0, 0, 0, 0, 0, 0, 0, 12]))).g
    = #v[0, 0, 0, 0, 0, 0, 0, 0, 11] := by decide

/-- Vectors V-WG, second row: F = 0x69, M = 1. -/
theorem test_wrg_69_stop :
    (nextOf (exec .wrg { withG #v[0, 1, 2, 254, 255, 128, 37, 64, 200] with f := 0x69#8, m := 1 })).g
      = #v[0, 1, 1, 254, 255, 128, 36, 63, 199] := by decide

/-- Vectors V-WG, fifth row: 255 made even is 254 (90_conflicts.md C1). -/
theorem test_wrg_255 :
    (nextOf (exec .wrg { withG #v[255, 255, 255, 255, 255, 255, 255, 255, 255] with f := 0x00#8, m := 1 })).g
      = #v[254, 254, 254, 254, 254, 254, 254, 254, 255] := by decide

/-- Vectors V-RG, third row: F = 0xAA, M = 1. -/
theorem test_rdg_aa :
    (nextOf (exec .rdg (withG #v[1, 2, 3, 4, 5, 6, 7, 8, 9]))).f = 0xAA#8
    ∧ (nextOf (exec .rdg (withG #v[1, 2, 3, 4, 5, 6, 7, 8, 9]))).m = 1 := by decide

/-- Vectors V-RG, first row: F = 0x48, M = 0. -/
theorem test_rdg_48 :
    (nextOf (exec .rdg { withG #v[0, 1, 0, 254, 255, 254, 10, 10, 12] with m := 1 })).f = 0x48#8
    ∧ (nextOf (exec .rdg { withG #v[0, 1, 0, 254, 255, 254, 10, 10, 12] with m := 1 })).m = 0 := by decide

/-- Program P1, after its ENC: OUT. -/
theorem test_enc_hi : (nextOf (exec .enc hi)).out.map Prod.snd
    = [0, 1, 0, 254, 255, 254, 10, 10, 12, 0, 1, 1, 254, 255, 128, 36, 63, 199] := by decide +kernel

/-- Program P2, after its ENC: OUT, and the registers. -/
theorem test_enc_alpha :
    (nextOf (exec .enc alpha)).out.map Prod.snd = [1, 3, 5, 200, 7, 1, 1, 201, 3, 5, 99, 202, 7, 7, 7, 203, 9, 9, 9, 204,
      11, 11, 11, 205, 13, 13, 13, 206]
    ∧ (nextOf (exec .enc alpha)).pxc = 3 ∧ (nextOf (exec .enc alpha)).gix = 1 ∧ (nextOf (exec .enc alpha)).f = 0xFF#8
    ∧ (nextOf (exec .enc alpha)).status.toByte = 0x02#8 := by decide +kernel

/-- Program P1, after its first DEC. -/
theorem test_dec_hi : (nextOf (exec .dec hiEncoded)).msg = [(0, 0x48), (1, 0x69)]
    ∧ (nextOf (exec .dec hiEncoded)).mlen = 2 ∧ (nextOf (exec .dec hiEncoded)).pxc = 6
    ∧ (nextOf (exec .dec hiEncoded)).g = #v[0, 1, 1, 254, 255, 128, 36, 63, 199] := by decide +kernel

/-- Program P1, after its second DEC (NPIX = 3): UnterminatedMessage. -/
theorem test_dec_truncated :
    (nextOf (exec .dec { hiEncoded with npix := 3 })).status.toByte = 0x34#8
    ∧ (nextOf (exec .dec { hiEncoded with npix := 3 })).mlen = 0 ∧ (nextOf (exec .dec { hiEncoded with npix := 3 })).gix = 1
    ∧ (nextOf (exec .dec { hiEncoded with npix := 3 })).d = 0x48#8 := by decide +kernel

/-- Program P3: CLR after CarrierTooSmall. -/
theorem test_clr_after_error : (nextOf (exec .clr latched)) = { hi with status := State.reset.status } := by decide +kernel

/-- Vectors V-CMD: with an error latched ENC is dropped. -/
theorem test_latched_drops_enc : nextOf (exec .enc latched) = latched := by decide +kernel

/-! ### Errors and the host -/

/-- Vectors V-ERR: ENC's errors and their order. -/
theorem test_enc_errors :
    (nextOf (exec .enc { hi with mlen := 0, nch := 2 })).status.toByte = 0x14#8
    ∧ (nextOf (exec .enc { hi with nch := 2, npix := 5 })).status.toByte = 0x54#8
    ∧ (nextOf (exec .enc { hi with npix := 5 })).status.toByte = 0x24#8 := by decide +kernel

/-- Program P6: DEC's configuration errors, and 21 pixels of 3 channels, which fit. -/
theorem test_dec_errors :
    (nextOf (exec .dec { State.reset with nch := 2, npix := 3 })).status.toByte = 0x54#8
    ∧ (nextOf (exec .dec { State.reset with nch := 5, npix := 3 })).status.toByte = 0x54#8
    ∧ (nextOf (exec .dec { State.reset with nch := 3, npix := 22 })).status.toByte = 0x54#8
    ∧ configLegal { State.reset with nch := 3, npix := 21 } = true := by decide +kernel

/-- Vectors V-ERR: ENC and DEC straight after reset, through `step`. -/
theorem test_step_after_reset :
    (nextOf (step (State.reset.withFetchWord 16 0x6000))).status.toByte = 0x14#8
    ∧ (nextOf (step (State.reset.withFetchWord 16 0x7000))).status.toByte = 0x34#8
    ∧ (nextOf (step (State.reset.withFetchWord 16 0x3900))).status.toByte = 0x44#8 := by decide +kernel

/-- Vector V-CMD: the host writes 0xABCD_6000, and ENC runs. -/
theorem test_host_write_keeps_low_half :
    (nextOf (step { hi with pending := [.wreg 0 0xABCD6000#32] })).status.toByte = 0x02#8 := by decide +kernel

/-- 10_state.md R19: writing 0x1FF to G3 stores 0xFF, and writing 2 to M stores 0. -/
theorem test_host_write_truncates :
    (nextOf (step { State.reset with pending := [.wreg 0x13 0x1FF#32] })).g = #v[0, 0, 0, 0xFF, 0, 0, 0, 0, 0]
    ∧ (nextOf (step { State.reset with m := 1, pending := [.wreg 0x09 2#32] })).m = 0 := by decide

/-- 10_state.md R19, R27: RREG of NCH after reset, and of CMD. -/
theorem test_host_reads :
    (nextOf (step { State.reset with pending := [.rreg 0x03] })).reply = some 3#32
    ∧ (nextOf (step { State.reset with pending := [.rreg 0x00] })).reply = some 0#32 := by decide

/-- 20_memory.md R32: beyond the capacity a write has no effect and a read returns 0. -/
theorem test_host_memory_edge :
    (nextOf (step { State.reset with pending := [.wmem .msg 15 7#8] })).msg = [(15, 7#8)]
    ∧ (nextOf (step { State.reset with pending := [.wmem .msg 16 7#8] })).msg = []
    ∧ (nextOf (step { hi with pending := [.rmem .car 64] })).reply = some 0#32 := by decide

/-! ### Witnesses: states and operands that meet the hypotheses of each obligation together -/

theorem no_stop_of_small (s : State) (h : s.npix.toNat < 3) : ∀ n, ¬ StopGroup s n := by
  intro n hn; have := hn.1; omega

theorem evens_no_stop : ∀ n, ¬ StopGroup evens n := by
  intro n hn
  have h : n < 2 := by have := hn.1; have : evens.npix.toNat = 6 := by decide +kernel
                       omega
  have h2 : ∀ n, n < 2 → ¬ StopGroup evens n := by decide +kernel
  exact h2 n h hn

/-- Field values at the edges of each clause: FPAR's last legal index, its first illegal one, a set reserved bit, a set
operand bit of another opcode, the last opcode in use, the first reserved one. -/
theorem witness_DecodingProcedure :
    ((3 < 16 ∧ 8 < 16 ∧ 0 < 128 ∧ 1 < 2) ∧ (3 = 3 ∧ 8 ≤ 8 ∧ 0 = 0)) ∧ ¬ (9 ≤ 8 ∧ 0 = 0) ∧ ¬ (8 ≤ 8 ∧ 127 = 0)
    ∧ ((2 ≠ 3) ∧ ¬ (0 = 0 ∧ 0 = 0 ∧ 1 = 0)) ∧ ((8 ≠ 3) ∧ (0 = 0 ∧ 0 = 0 ∧ 0 = 0)) ∧ 8 < 9 ∧ (9 : Nat) < 16 := by decide

theorem witness_LegalWordsExactly : LegalWord 0x3801#16 ∧ LegalWord 0x8000#16
    ∧ ¬ LegalWord (commandWord 0x3900#32) ∧ ¬ LegalWord (commandWord 0x9000#32) ∧ State.reset.Accepting := by decide

theorem witness_FrameFormat : (0 : Nat) < 8 ∧ (7 : Nat) < 8 := by decide

theorem witness_FramerRoundTrips : ([0x48#8] : List Byte) ≠ [] ∧ hi.Accepting := by decide

theorem witness_ForceParityCases :
    (255#8).toNat % 2 = 1 ∧ (254#8).toNat % 2 = 0 ∧ ((0#8).toNat % 2 = 0 ∧ (0#8).toNat = 0)
    ∧ ((2#8).toNat % 2 = 0 ∧ (2#8).toNat ≠ 0) := by decide

theorem witness_ForceParityLaws :
    ((1#8).toNat % 2 ≠ false.toNat ∧ ¬ ((1#8) = 0 ∧ false = true)) ∧ (0#8).toNat < (forceParity 0#8 true).toNat
    ∧ (255#8).toNat % 2 = 1 ∧ ((2#8).toNat % 2 = 0 ∧ 2 ≤ (2#8).toNat) := by decide

theorem witness_WriteGroupSlots : (0 : Fin 9).val < 8 ∧ (7 : Fin 9).val < 8 := by decide

theorem witness_ReadGroupParities : (0 : Fin 9).val < 8 ∧ (7 : Fin 9).val < 8 := by decide

theorem witness_MarkersStopLast : 1 ≤ 1 ∧ 0 < 1 ∧ 1 ≤ 2 ∧ (1 : Nat) < 2 := by decide

/-- An image of three pixels, and payloads of 0, 2 and exactly 1 byte for it. -/
theorem witness_EncodeImageClosedForm :
    (Image.mk 3 3 [0, 0, 0, 0, 0, 0, 0, 0, 0]).ok = true ∧ ([] : List Byte) = []
    ∧ (([0x00#8, 0x00#8] : List Byte) ≠ [] ∧ 3 < 3 * ([0x00#8, 0x00#8] : List Byte).length)
    ∧ (([0x00#8] : List Byte) ≠ [] ∧ 3 * ([0x00#8] : List Byte).length ≤ 3) := by decide

/-- V-DEC-4's group 1 is the first odd one; an image with no group has none. -/
theorem witness_ReadStopsAtFirstOdd :
    (3 * 1 + 3 ≤ (imageOf .car raw).npix ∧ ((imageOf .car raw).group 1)[8].toNat % 2 = 1
      ∧ ∀ j, j < 1 → ((imageOf .car raw).group j)[8].toNat % 2 = 0)
    ∧ ∀ j, j < 2 → ((imageOf .car evens).group j)[8].toNat % 2 = 0 := by decide +kernel

/-- An image of five pixels has one group: two frames are too many, one fits. -/
theorem witness_WriteFollowsRule :
    (Image.mk 5 3 (List.replicate 15 0)).ok = true ∧ ([1#8, 2#8] : List Byte) ≠ [] ∧ 5 / 3 < ([1#8, 2#8] : List Byte).length
    ∧ ([1#8] : List Byte) ≠ [] ∧ ([1#8] : List Byte).length ≤ 5 / 3 := by decide

theorem witness_RoundTrip :
    ((Image.mk 3 3 [0, 0, 0, 0, 0, 0, 0, 0, 0]).ok = true ∧ ([0x00#8] : List Byte) ≠ []
      ∧ 3 * ([0x00#8] : List Byte).length ≤ 3) ∧ hi.EncReady := by decide +kernel

theorem witness_NopChangesNothing : (0x0FFF#16).toNat / 4096 = 0 ∧ (0x0FFF#16).toNat % 4096 ≠ 0 := by decide

theorem witness_TofrFollowsRule : ((0x1001#16).toNat / 4096 = 1 ∧ (0x1001#16).toNat % 4096 ≠ 0) ∧ hi.Accepting := by
  decide

theorem witness_FrfrFollowsRule : hi.Accepting := by decide

theorem witness_FparFollowsRule :
    ((8 : Nat) ≤ 8 ∧ (1 : Nat) ≤ 1)
    ∧ (9 < 16 ∧ 0 < 128 ∧ 0 < 2 ∧ (9 ≤ 9 ∨ 0 ≠ 0) ∧ commandWord 0x3900#32 = wordOf 3 9 0 0)
    ∧ (8 < 16 ∧ 1 < 128 ∧ (9 ≤ 8 ∨ 1 ≠ 0) ∧ commandWord 0x3802#32 = wordOf 3 8 1 0)
    ∧ (8#4).toNat ≤ 8 ∧ (0#4).toNat ≤ 8 ∧ hi.Accepting := by decide

theorem witness_FparWithNoRegisterIsIllegal :
    9 ≤ (9#4).toNat ∧ 9 ≤ (15#4).toNat ∧ hi.Accepting ∧ ¬ latched.Accepting := by decide

theorem witness_WrgFollowsRule : hi.Accepting := by decide

theorem witness_RdgFollowsRule : hi.Accepting := by decide

theorem witness_ClrFollowsRule : latched.status.errf = true ∧ Instr.enc ≠ .clr ∧ Instr.fpar 9#4 true ≠ .clr := by decide

theorem witness_RegisterCommandsFrame :
    (Instr.fpar 8#4 true).wellFormed = true ∧ exec (.fpar 8#4 true) (withG #v[0, 0, 0, 0, 0, 0, 0, 0, 12])
      = .next (withG #v[0, 0, 0, 0, 0, 0, 0, 0, 11]) := ⟨by decide, rfl⟩

/-- ENC's hypotheses: P1 fills its image exactly (6 = 3 * 2), P2 has pixels to spare. -/
theorem witness_EncBigStep : hi.EncReady ∧ alpha.EncReady := by decide +kernel

theorem witness_EncStateAfter : hi.EncReady ∧ alpha.EncReady := witness_EncBigStep

/-- A slot below MLEN groups, and a cell of the image that is none (P2's first fourth channel). -/
theorem witness_EncBigStep_clauses :
    ((1 : Nat) < hi.mlen.toNat ∧ (8 : Nat) ≤ 8) ∧ 3 < alpha.npix.toNat * alpha.nch.toNat
    ∧ ∀ i, i < alpha.mlen.toNat → ∀ k, k < 9 → 3 ≠ slotAt alpha i k := by decide +kernel

theorem witness_EncErrors :
    (State.reset.Accepting ∧ State.reset.mlen.toNat = 0)
    ∧ ({ hi with mlen := 17 } : State).mlen.toNat ≠ 0
    ∧ ¬ (({ hi with mlen := 17 } : State).ConfigLegal
        ∧ ({ hi with mlen := 17 } : State).mlen.toNat ≤ ({ hi with mlen := 17 } : State).params.msgBytes)
    ∧ (({ hi with npix := 5 } : State).ConfigLegal
        ∧ ({ hi with npix := 5 } : State).mlen.toNat ≤ ({ hi with npix := 5 } : State).params.msgBytes
        ∧ ({ hi with npix := 5 } : State).npix.toNat < 3 * ({ hi with npix := 5 } : State).mlen.toNat) := by
  decide +kernel

/-- The last group of P1's image, in either pixel memory, and a cell that is no slot of it. -/
theorem witness_GroupLoadAndStore :
    ({ hi with pxc := 3 } : State).ConfigLegal ∧ Space.out ≠ .msg ∧ Space.car ≠ .msg
    ∧ ({ hi with pxc := 3 } : State).pxc.toNat % 3 = 0 ∧ ({ hi with pxc := 3 } : State).pxc.toNat + 3 ≤ hi.npix.toNat
    ∧ ∀ p, 3 ≤ p → p < 6 → ∀ c, c < 3 → 8 ≠ p * hi.nch.toNat + c := by
  refine ⟨by decide +kernel, by decide, by decide, by decide +kernel, by decide +kernel, ?_⟩
  intro p h1 h2 c _ e
  have : hi.nch.toNat = 3 := by decide +kernel
  rw [this] at e
  omega

/-- DEC's hypotheses at its first stopping group: group 1 of V-DEC-4. -/
theorem witness_DecBigStep_stop :
    raw.params.Ok ∧ raw.Accepting ∧ raw.ConfigLegal ∧ StopGroup raw 1 ∧ ∀ j, j < 1 → ¬ StopGroup raw j := by
  decide +kernel

/-- DEC's hypotheses with no stopping group: two groups (V-DEC-1), and no group at all (V-DEC-3). -/
theorem witness_DecBigStep_none :
    (evens.params.Ok ∧ evens.Accepting ∧ evens.ConfigLegal ∧ 1 ≤ evens.npix.toNat / 3 ∧ ∀ n, ¬ StopGroup evens n)
    ∧ (State.reset.params.Ok ∧ State.reset.Accepting ∧ ({ State.reset with npix := 2 } : State).ConfigLegal
      ∧ ({ State.reset with npix := 2 } : State).npix.toNat / 3 = 0
      ∧ ∀ n, ¬ StopGroup { State.reset with npix := 2 } n) :=
  ⟨⟨by decide +kernel, by decide +kernel, by decide +kernel, by decide +kernel, evens_no_stop⟩,
    by decide, by decide, by decide, by decide, no_stop_of_small _ (by decide)⟩

theorem witness_DecStateAfterSuccess :
    raw.params.Ok ∧ raw.Accepting ∧ raw.ConfigLegal ∧ StopGroup raw 1 ∧ ∀ j, j < 1 → ¬ StopGroup raw j :=
  witness_DecBigStep_stop

theorem witness_DecStateAfterFailure :
    evens.params.Ok ∧ evens.Accepting ∧ evens.ConfigLegal ∧ 1 ≤ evens.npix.toNat / 3 ∧ ∀ n, ¬ StopGroup evens n :=
  witness_DecBigStep_none.1

theorem witness_DecBadConfig :
    State.reset.Accepting ∧ ¬ ({ State.reset with nch := 2 } : State).ConfigLegal
    ∧ ¬ ({ State.reset with nch := 5 } : State).ConfigLegal ∧ ¬ ({ State.reset with npix := 22 } : State).ConfigLegal
    ∧ ({ State.reset with npix := 21 } : State).ConfigLegal := by decide

/-- CLR; ENC and DEC with the first offset their memory clauses speak of; FPAR with another register than its own. -/
theorem witness_OnlyNamedStateChanges :
    exec .clr { State.reset with status := statusOfError 2 } = .next State.reset
    ∧ (exec .enc State.reset = .next { State.reset with status := statusOfError 1 }
      ∧ State.reset.npix.toNat * State.reset.nch.toNat ≤ 0)
    ∧ (exec .dec State.reset = .next { State.reset with status := statusOfError 3 } ∧ State.reset.gix.toNat ≤ 0)
    ∧ (exec (.fpar 8#4 true) (withG #v[0, 0, 0, 0, 0, 0, 0, 0, 12]) = .next (withG #v[0, 0, 0, 0, 0, 0, 0, 0, 11])
      ∧ (7 : Fin 9).val ≠ (8#4).toNat) := ⟨rfl, ⟨rfl, by decide⟩, ⟨rfl, by decide⟩, rfl, by decide⟩

theorem witness_CommandAcceptance :
    decode (commandWord 0x8000#32) = .ok .clr
    ∧ (latched.status.errf = true ∧ decode (commandWord 0x6000#32) ≠ .ok .clr ∧ decode (commandWord 0xFFFF#32) ≠ .ok .clr)
    ∧ (hi.Accepting ∧ decode (commandWord 0x9000#32) = .error .reservedOpcode)
    ∧ (hi.Accepting ∧ decode (commandWord 0x0000#32) = .ok .nop)
    ∧ (hi.Accepting ∧ Instr.enc ≠ .nop ∧ decode (commandWord 0xABCD6000#32) = .ok .enc) := by decide

theorem witness_StepRunsDecodedCommand :
    ({ hi with pending := [.wreg 0 0xABCD6000#32, .reset] } : State).pending = .wreg 0 0xABCD6000#32 :: [.reset]
    ∧ hi.status.busy = false ∧ decode (commandWord 0xABCD6000#32) = .ok .enc ∧ decodeTableWord 16 0x7000 = some .dec := by
  decide

theorem witness_StepOnIllegalWord :
    ({ hi with pending := [.wreg 0 0x3900#32] } : State).pending = .wreg 0 0x3900#32 :: [] ∧ hi.status.busy = false
    ∧ ¬ LegalWord (commandWord 0x3900#32) ∧ hi.Accepting ∧ ¬ latched.Accepting := by decide

/-- A register number of each clause, at the edges of the ranges. -/
theorem witness_HostRegisterWrites :
    hi.status.busy = false ∧ ({ hi with pending := [.wreg 0x18 1#32] } : State).pending = .wreg 0x18 1#32 :: []
    ∧ 0x10 = 0x10 + (0 : Fin 9).val ∧ 0x18 = 0x10 + (8 : Fin 9).val
    ∧ (0x0A ≤ 0x0A ∧ 0x0A ≤ 0x0F) ∧ (0x0A ≤ 0x0F ∧ 0x0F ≤ 0x0F) ∧ 0x19 ≤ 0x19
    ∧ (∀ k : Fin 9, 0x0F ≠ 0x10 + k.val) ∧ ∀ k : Fin 9, 0x19 ≠ 0x10 + k.val := by decide

theorem witness_HostRegisterReads :
    hi.status.busy = false ∧ ({ hi with pending := [.rreg 0x18] } : State).pending = .rreg 0x18 :: []
    ∧ 0x10 = 0x10 + (0 : Fin 9).val ∧ 0x18 = 0x10 + (8 : Fin 9).val
    ∧ (0x0A ≤ 0x0F ∧ 0x0F ≤ 0x0F) ∧ 0x19 ≤ 0x19 := by decide

/-- The last offset of each memory, and the first beyond it. -/
theorem witness_HostMemoryAccesses :
    hi.status.busy = false ∧ ({ hi with pending := [.wmem .msg 15 1#8] } : State).pending = .wmem .msg 15 1#8 :: []
    ∧ 15 < hi.cap .msg ∧ hi.cap .msg ≤ 16 ∧ 63 < hi.cap .car ∧ hi.cap .out ≤ 64
    ∧ ¬ (Space.car = Space.msg ∧ 15 = 15) ∧ ({ hi with pending := [.rmem .car 64] } : State).pending = .rmem .car 64 :: [] := by
  decide +kernel

theorem witness_IdleStepChangesNothing : State.reset.pending = [] := by decide

theorem witness_HostAccessWhileBusy :
    busy.status.busy = true ∧ HostAction.rreg 2 ≠ .rreg 1 ∧ HostAction.rreg 2 ≠ .reset
    ∧ ({ busy with pending := [.rreg 2] } : State).pending = .rreg 2 :: []
    ∧ ({ busy with pending := [.rreg 1] } : State).pending = .rreg 1 :: [] := by decide +kernel

/-- Reset with a command executing, and with none and a byte inside and at the end of each capacity. -/
theorem witness_ResetActionResetsRegisters :
    ({ busy with pending := [.reset] } : State).pending = .reset :: [] ∧ busy.status.busy = true
    ∧ ({ hi with pending := [.reset] } : State).pending = .reset :: [] ∧ hi.status.busy = false
    ∧ 0 < hi.cap .car ∧ 63 < hi.cap .out ∧ 15 < hi.cap .msg := by decide +kernel

/-- 10_state.md R27: reset in operation, an error latched, puts NCH back to 3 and STATUS to 0x00. -/
theorem test_reset_in_operation :
    (nextOf (step { latched with nch := 7, pending := [.reset] })).nch = 3
    ∧ (nextOf (step { latched with nch := 7, pending := [.reset] })).status.toByte = 0x00#8 := by decide +kernel

/-- An ENC cut short, with a cell it could have written and one it could not; the same of a DEC. -/
theorem witness_ResetCutsCommandShort :
    ({ hi with pending := [.resetDuring 0x6000#32] } : State).pending = .resetDuring 0x6000#32 :: []
    ∧ hi.status.busy = false
    ∧ (decode (commandWord 0x6000#32) = .ok .enc ∧ hi.EncReady ∧ 17 < hi.npix.toNat * hi.nch.toNat)
    ∧ ¬ (decode (commandWord 0x6000#32) = .ok .enc ∧ hi.EncReady ∧ 18 < hi.npix.toNat * hi.nch.toNat)
    ∧ (decode (commandWord 0x7000#32) = .ok .dec ∧ hi.Accepting ∧ hi.ConfigLegal ∧ 1 < hi.npix.toNat / 3)
    ∧ ¬ (decode (commandWord 0x7000#32) = .ok .dec ∧ hi.Accepting ∧ hi.ConfigLegal ∧ 2 < hi.npix.toNat / 3) := by
  decide +kernel

/-- The spec's parameters, and the least that R9 allows. -/
theorem witness_CommandsStraightAfterReset :
    Config.resetParams.Ok ∧ ({ nchMax := 3, pixmemBytes := 0, msgBytes := 0 } : Params).Ok := by decide

theorem witness_StepKeepsInvariant :
    ({ State.reset with pending := [.wreg 4 1#32] } : State).Inv
    ∧ step { State.reset with pending := [.wreg 4 1#32] } = .next { State.reset with mlen := 1 } :=
  ⟨by decide, rfl⟩

theorem witness_ResetHasInvariant : Config.resetParams.Ok := by decide

/-- The reset state with an error latched. -/
def resetLatched : State := { State.reset with status := statusOfError 2 }

/-- One step that drops a word, and one that clears the error. -/
theorem witness_LatchLeftOnlyByClrOrReset :
    resetLatched.status.errf = true ∧ step (resetLatched.withFetchWord 16 0x6000) = .next resetLatched
    ∧ step (resetLatched.withFetchWord 16 0x8000) = .next State.reset := ⟨rfl, rfl, rfl⟩

/-- A state with other working registers, counters and OUT. -/
def otherWork (s : State) : State :=
  { s with g := #v[1, 2, 3, 4, 5, 6, 7, 8, 9], d := 7, pxc := 5, gix := 1, out := [(0, 9)] }

theorem witness_ResultsDependOnInputsAlone :
    hi.params.Ok ∧ (otherWork hi).params = hi.params ∧ hi.Accepting ∧ (otherWork hi).Accepting
    ∧ (otherWork hi).npix = hi.npix ∧ (otherWork hi).nch = hi.nch ∧ SameBytesIn .car hi (otherWork hi)
    ∧ (otherWork hi).mlen = hi.mlen ∧ SameBytesIn .msg hi (otherWork hi) ∧ hi.EncReady ∧ hi.ConfigLegal := by
  have h : ∀ s, SameBytesIn .car s (otherWork s) ∧ SameBytesIn .msg s (otherWork s) := fun s => ⟨fun _ => rfl, fun _ => rfl⟩
  exact ⟨by decide +kernel, by decide +kernel, by decide +kernel, by decide +kernel, by decide +kernel, by decide +kernel,
    (h hi).1, by decide +kernel, (h hi).2, witness_EncBigStep.1, by decide +kernel⟩

/-- V-DEC-4 with three more pixels and a different fourth channel count: the slots of its two groups at their new
offsets. -/
theorem witness_DecIgnoresWhatItDoesNotRead :
    let s' : State := load .car 0 [10, 20, 30, 0, 40, 50, 60, 0, 70, 80, 90, 0, 1, 2, 3, 0, 4, 5, 6, 0, 7, 8, 9, 0]
      { State.reset with npix := 8, nch := 4 }
    raw.params.Ok ∧ s'.params.Ok ∧ raw.Accepting ∧ s'.Accepting ∧ raw.ConfigLegal ∧ s'.ConfigLegal ∧ StopGroup raw 1
    ∧ (∀ j, j < 1 → ¬ StopGroup raw j) ∧ 3 * 1 + 3 ≤ s'.npix.toNat
    ∧ ∀ i, i < 2 → ∀ k, k < 9 → memRead .car (slotAt s' i k) s' = memRead .car (slotAt raw i k) raw := by
  decide +kernel

theorem witness_TestableProperties :
    (({ hi with npix := 5 } : State).Accepting ∧ ({ hi with npix := 5 } : State).ConfigLegal
      ∧ 1 ≤ ({ hi with npix := 5 } : State).mlen.toNat
      ∧ ({ hi with npix := 5 } : State).mlen.toNat ≤ ({ hi with npix := 5 } : State).params.msgBytes
      ∧ 3 * ({ hi with npix := 5 } : State).npix.toNat < 9 * ({ hi with npix := 5 } : State).mlen.toNat)
    ∧ hi.EncReady ∧ (0 : Nat) < hi.mlen.toNat - 1 ∧ (State.reset.Accepting ∧ State.reset.mlen = 0)
    ∧ (2 ≤ hi.mlen.toNat ∧ (3#32).toNat / 3 = hi.mlen.toNat - 1) ∧ (5#32).toNat / 3 = hi.mlen.toNat - 1 := by
  decide +kernel

theorem witness_SlotsDistinctInsideImage :
    ((3 : Nat) ≤ 3 ∧ 3 * 0 + 3 ≤ 3 ∧ (8 : Nat) ≤ 8) ∧ slotOffset 3 (3 * 1) 8 = slotOffset 3 (3 * 1) 8 := by decide

end Sys2Proof.Tests
end

section
/-! PROOFS of the scope family, 1: what STATUS holds between commands (10_state.md R21), and the commands keep the
invariant. BUSY is 1 inside a command, so a body's part of the invariant is stated of the state it would end in,
`(endCommand s).Inv`. -/

namespace Sys2Proof.Machine

/-! ### STATUS at the end of a command -/

/-- An accepted command whose body leaves STATUS alone ends with a good STATUS. -/
theorem Status.ok_ended_accepted {st : Status} (h : st.Ok) : st.accepted.ended.Ok := by
  obtain ⟨-, hclear, hlatched⟩ := h
  exact ⟨rfl, hclear, fun he => ⟨rfl, (hlatched he).2⟩⟩

/-- Error entry leaves a good STATUS: the five codes of 60_exceptions.md R91 lie in 1..5. -/
theorem Status.ok_raised (k : ErrorKind) : (Status.raised k).Ok := by cases k <;> decide

/-- CLR leaves a good STATUS, whatever it finds (60_exceptions.md R97). -/
theorem Status.ok_ended_cleared (st : Status) : st.cleared.ended.Ok :=
  ⟨rfl, fun _ => rfl, nofun⟩

/-- DONE may be set where no error is latched (43_orchestration.md R82, R83). -/
theorem Status.ok_ended_succeeded {st : Status} (he : st.errf = false) (h : st.ended.Ok) : st.succeeded.ended.Ok := by
  obtain ⟨-, hclear, -⟩ := h
  exact ⟨rfl, hclear, fun hlatched => nomatch he.symm.trans hlatched⟩

/-! ### Acceptance, error entry and CLR -/

theorem inv_endCommand_beginCommand {s : State} (h : s.Inv) : (endCommand (beginCommand s)).Inv := by
  obtain ⟨hparams, hstatus, hcounters, hmem⟩ := h
  exact ⟨hparams, Status.ok_ended_accepted hstatus, hcounters, hmem⟩

theorem inv_raise (k : ErrorKind) {s : State} (hparams : s.params.Ok) (hcounters : s.pxc.toNat = 3 * s.gix.toNat)
    (hmem : s.MemOk) : (raise k s).Inv :=
  ⟨hparams, Status.ok_raised k, hcounters, hmem⟩

theorem inv_illegalWord {s : State} (h : s.Inv) : (illegalWord s).Inv := by
  unfold illegalWord
  split
  · exact h
  · obtain ⟨hparams, -, hcounters, hmem⟩ := h
    exact inv_raise .illegalCommand hparams hcounters hmem

/-- A command that goes through acceptance keeps the invariant if its body, from BUSY = 1 and no latched error, does. -/
theorem inv_of_accept {body : State → State}
    (hbody : ∀ u : State, u.Accepting → (endCommand u).Inv → (endCommand (body u)).Inv)
    {s t : State} (h : s.Inv) (ht : accept body s = .next t) : t.Inv := by
  rcases accept_cases ht with ⟨-, rfl⟩ | ⟨ha, rfl⟩
  · exact h
  · exact hbody (beginCommand s) ha (inv_endCommand_beginCommand h)

theorem inv_runCommand_clearError {s : State} (h : s.Inv) : (runCommand clearError s).Inv := by
  obtain ⟨hparams, -, hcounters, hmem⟩ := h
  exact ⟨hparams, Status.ok_ended_cleared _, hcounters, hmem⟩

/-! ### ENC and DEC -/

/-- ENC's scan ends at GIX = MLEN, PXC = 3 * MLEN, without wrapping: its checks bound 3 * MLEN by NPIX
(43_orchestration.md R82). -/
theorem inv_encBody (u : State) (ha : u.Accepting) (h : (endCommand u).Inv) : (endCommand (encBody u)).Inv := by
  obtain ⟨hparams, hstatus, hcounters, hmem⟩ := h
  unfold encBody
  split
  next k _ => exact inv_raise k (s := u) hparams hcounters hmem
  next he =>
    obtain ⟨hconfig, -, -, hfits⟩ := (encError_none_iff u).1 he
    have P := encRun_passes u hconfig hfits
    have hparamsRun : (encRun u).params = u.params := P.params.trans (by simp [encStart, copyCarrier])
    have hstatusRun : (encRun u).status = u.status.succeeded :=
      congrArg Status.succeeded (P.status.trans (by simp [encStart, copyCarrier]))
    refine ⟨?params, ?status, ?counters, ?mem⟩
    case params => rwa [endCommand_params, hparamsRun]
    case status => rw [endCommand_status, hstatusRun]; exact Status.ok_ended_succeeded ha hstatus
    case counters => exact P.pxc.trans (congrArg (3 * ·) P.gix.symm)
    case mem => exact memOk_encLoop _ _ (memOk_fillCells _ _ _ u hmem)

/-- However far DEC's scan went, it leaves `PXC = 3 * GIX` and the parameters (43_orchestration.md R83). -/
theorem inv_of_decPasses {u t : State} {e : Nat} (P : DecPasses (decStart u) t 0 e) (hparams : u.params.Ok)
    (hstatus : t.status.ended.Ok) (hmem : t.MemOk) : (endCommand t).Inv :=
  ⟨P.params.symm ▸ hparams, hstatus, P.pxc.trans (congrArg (3 * ·) P.gix.symm), hmem⟩

/-- DEC's scan ends at a stop group with DONE = 1, or with UnterminatedMessage (43_orchestration.md R83). -/
theorem inv_decBody (u : State) (ha : u.Accepting) (h : (endCommand u).Inv) : (endCommand (decBody u)).Inv := by
  obtain ⟨hparams, hstatus, hcounters, hmem⟩ := h
  unfold decBody
  split
  next k _ => exact inv_raise k (s := u) hparams hcounters hmem
  next =>
    have hmemRun : (decRun u).MemOk := memOk_decLoop _ _ hmem
    rcases decRun_passes u with ⟨e, -, -, -, P, -, hst⟩ | ⟨-, P, -, hst⟩
    · exact inv_of_decPasses P hparams (hst.symm ▸ Status.ok_ended_succeeded ha hstatus) hmemRun
    · exact inv_of_decPasses P hparams (hst.symm ▸ Status.ok_raised .unterminatedMessage) hmemRun

/-! ### Every command -/

/-- The register commands write neither STATUS, a counter nor a memory, so their bodies keep the invariant by
computation; FPAR with an index of 9 to 15 is an illegal word (notes/assumptions/11.md). -/
theorem inv_of_exec (i : Instr) {s t : State} (h : s.Inv) (ht : exec i s = .next t) : t.Inv := by
  cases i with
  | nop => cases ht; exact h
  | tofr => exact inv_of_accept (body := applyTofr) (fun _ _ hu => hu) h ht
  | frfr => exact inv_of_accept (body := applyFrfr) (fun _ _ hu => hu) h ht
  | fpar a w =>
    by_cases ha : a.toNat ≤ 8
    · rw [exec_fpar_legal a w s ha] at ht
      exact inv_of_accept (body := applyFpar _ w) (fun _ _ hu => hu) h ht
    · rw [exec_fpar_illegal a w s ha] at ht
      cases ht
      exact inv_illegalWord h
  | wrg => exact inv_of_accept (body := applyWrg) (fun _ _ hu => hu) h ht
  | rdg => exact inv_of_accept (body := applyRdg) (fun _ _ hu => hu) h ht
  | enc => exact inv_of_accept inv_encBody h ht
  | dec => exact inv_of_accept inv_decBody h ht
  | clr => cases ht; exact inv_runCommand_clearError h

theorem inv_of_issue (x : Word) {s t : State} (h : s.Inv) (ht : issue x s = .next t) : t.Inv := by
  cases hd : decode (commandWord x) with
  | ok i => exact inv_of_exec i h (issue_ok hd s ▸ ht)
  | error e =>
    rw [issue_error hd s] at ht
    cases ht
    exact inv_illegalWord h

end Sys2Proof.Machine
end

section
/-! PROOFS of the scope family, 2: the host's accesses and reset keep the invariant, and with them every step. -/

namespace Sys2Proof.Machine

/-! ### Host accesses -/

/-- STATUS, PXC and GIX are read-only to the host (10_state.md R19), and no other register is in the invariant. -/
theorem inv_writeReg (r : Reg) (v : Word) {s : State} (h : s.Inv) : (writeReg r v s).Inv := by
  cases r <;> exact h

theorem inv_of_hostWriteReg (n : Nat) (v : Word) {s t : State} (h : s.Inv) (ht : hostWriteReg n v s = .next t) :
    t.Inv := by
  unfold hostWriteReg at ht
  split at ht
  next => cases ht; exact h
  next r _ =>
    split at ht
    · exact inv_of_issue v h ht
    · cases ht; exact inv_writeReg r v h

theorem inv_memWrite (sp : Space) (off : Nat) (v : Byte) {s : State} (h : s.Inv) : (memWrite sp off v s).Inv := by
  obtain ⟨hparams, hstatus, hcounters, hmem⟩ := h
  exact ⟨by rwa [memWrite_params], by rwa [memWrite_status], by rwa [memWrite_pxc, memWrite_gix],
    memOk_memWrite sp off v s hmem⟩

/-! ### Reset -/

/-- Reset needs only the parameters and the memories: it sets every register (70_reset_and_hazards.md R104). -/
theorem inv_resetMachine {s : State} (hparams : s.params.Ok) (hmem : s.MemOk) : (resetMachine s).Inv :=
  ⟨by rwa [resetMachine_params], by rw [resetMachine_status]; decide, by rw [resetMachine_pxc, resetMachine_gix]; rfl,
    memOk_resetMachine s hmem⟩

theorem inv_issueThenReset (x : Word) {s : State} (h : s.Inv) : (issueThenReset x s).Inv := by
  obtain ⟨hparams, -, -, hmem⟩ := h
  unfold issueThenReset
  split
  next i _ => exact inv_resetMachine ((cutShort_keeps i s).1.symm ▸ hparams) (memOk_cutShort i s hmem)
  next => exact inv_resetMachine hparams hmem

/-! ### Every host action, and every step -/

theorem inv_of_hostAct (a : HostAction) {s t : State} (h : s.Inv) (ht : hostAct a s = .next t) : t.Inv := by
  cases a with
  | wreg n v => exact inv_of_hostWriteReg n v h ht
  | rreg n => cases ht; exact h
  | wmem sp off v => cases ht; exact inv_memWrite sp off v h
  | rmem sp off => cases ht; exact h
  | reset =>
    cases ht
    obtain ⟨hparams, -, -, hmem⟩ := h
    exact inv_resetMachine hparams hmem
  | resetDuring x => cases ht; exact inv_issueThenReset x h

/-- Settles O48: the step waits, or it is one host action, and each of the six kinds keeps the invariant. -/
theorem stepKeepsInvariant : Obligations.StepKeepsInvariant := by
  intro s t h ht
  rcases step_cases ht with ⟨-, rfl⟩ | ⟨a, rest, -, -, hact⟩
  · exact h
  · exact inv_of_hostAct a (s := { s with pending := rest }) h hact

/-- The reset registers meet the invariant with any parameters within R9 (10_state.md R27, 00_scope.md R9). -/
theorem inv_reset_with_params (p : Params) (hp : p.Ok) : ({ State.reset with params := p } : State).Inv :=
  ⟨hp, ⟨rfl, fun _ => rfl, nofun⟩, rfl, Memory.wf_nil _, Memory.wf_nil _, Memory.wf_nil _⟩

/-- Settles O49: the reset state carries one choice of parameters within R9 (notes/assumptions/3.md). -/
theorem resetHasInvariant : Obligations.ResetHasInvariant :=
  ⟨inv_reset_with_params Config.resetParams (by decide), inv_reset_with_params⟩

end Sys2Proof.Machine
end

section
/-! PROOFS of the state family, 1: the state each command leaves unchanged (10_state.md R30, 20_memory.md R41), in every
next state, an error latched or not. -/

namespace Sys2Proof.Machine

/-! ### The commands other than ENC and DEC: the next state as an update of the one before

Where a command cannot be an illegal word, the update keeps ERRF and CODE: such a command raises no error. -/

theorem exec_tofr_update {s t : State} (h : exec .tofr s = .next t) :
    ∃ f st, t = { s with f := f, status := st } ∧ st.errf = s.status.errf ∧ st.code = s.status.code := by
  rcases accept_cases h with ⟨-, rfl⟩ | ⟨-, rfl⟩ <;> exact ⟨_, _, rfl, rfl, rfl⟩

theorem exec_frfr_update {s t : State} (h : exec .frfr s = .next t) :
    ∃ d st, t = { s with d := d, status := st } ∧ st.errf = s.status.errf ∧ st.code = s.status.code := by
  rcases accept_cases h with ⟨-, rfl⟩ | ⟨-, rfl⟩ <;> exact ⟨_, _, rfl, rfl, rfl⟩

theorem exec_wrg_update {s t : State} (h : exec .wrg s = .next t) :
    ∃ g st, t = { s with g := g, status := st } ∧ st.errf = s.status.errf ∧ st.code = s.status.code := by
  rcases accept_cases h with ⟨-, rfl⟩ | ⟨-, rfl⟩ <;> exact ⟨_, _, rfl, rfl, rfl⟩

theorem exec_rdg_update {s t : State} (h : exec .rdg s = .next t) :
    ∃ f m st, t = { s with f := f, m := m, status := st } ∧ st.errf = s.status.errf ∧ st.code = s.status.code := by
  rcases accept_cases h with ⟨-, rfl⟩ | ⟨-, rfl⟩ <;> exact ⟨_, _, _, rfl, rfl, rfl⟩

theorem exec_clr_update {s t : State} (h : exec .clr s = .next t) : ∃ st, t = { s with status := st } := by
  cases h; exact ⟨_, rfl⟩

/-- An illegal word writes STATUS alone (30_encoding.md R57, 44_system.md R88). -/
theorem illegalWord_update (s : State) : ∃ st, illegalWord s = { s with status := st } := by
  unfold illegalWord
  split <;> exact ⟨_, rfl⟩

/-- FPAR writes STATUS and the one register its field names; with an index of 9 to 15 it may raise IllegalCommand. -/
theorem exec_fpar_update {a : BitVec 4} {w : Bool} {s t : State} (h : exec (.fpar a w) s = .next t) :
    ∃ g st, t = { s with g := g, status := st } ∧ (∀ k : Fin 9, k.val ≠ a.toNat → g[k] = s.g[k])
      ∧ (a.toNat ≤ 8 → st.errf = s.status.errf ∧ st.code = s.status.code) := by
  by_cases ha : a.toNat ≤ 8
  · rw [exec_fpar_legal a w s ha] at h
    rcases accept_cases h with ⟨-, rfl⟩ | ⟨-, rfl⟩
    · exact ⟨_, _, rfl, fun _ _ => rfl, fun _ => ⟨rfl, rfl⟩⟩
    · exact ⟨_, _, rfl, fun k hk => Vector.getElem_set_ne (by omega) k.isLt hk.symm, fun _ => ⟨rfl, rfl⟩⟩
  · rw [exec_fpar_illegal a w s ha] at h
    injection h with h
    obtain ⟨st, hst⟩ := illegalWord_update s
    exact ⟨s.g, st, h.symm.trans hst, fun _ _ => rfl, fun hle => absurd hle ha⟩

/-- Only the working registers G, F, M, D and STATUS may differ between `s` and `t`. -/
structure SameButWorking (s t : State) : Prop where
  bytes : SameBytes s t
  own : SameOwn s t
  pxc : t.pxc = s.pxc
  gix : t.gix = s.gix
  npix : t.npix = s.npix
  nch : t.nch = s.nch
  mlen : t.mlen = s.mlen

theorem sameButWorking_update (s : State) (g : GroupRegs) (f : Byte) (m : BitVec 1) (d : Byte) (st : Status) :
    SameButWorking s { s with g := g, f := f, m := m, d := d, status := st } where
  bytes sp _ := by cases sp <;> rfl
  own := ⟨rfl, rfl, rfl, rfl⟩
  pxc := rfl
  gix := rfl
  npix := rfl
  nch := rfl
  mlen := rfl

/-- No command but ENC and DEC touches a memory, a counter or the image's description (20_memory.md R41). -/
theorem exec_sameButWorking {i : Instr} {s t : State} (henc : i ≠ .enc) (hdec : i ≠ .dec) (h : exec i s = .next t) :
    SameButWorking s t := by
  cases i with
  | nop => cases h; exact sameButWorking_update s _ _ _ _ _
  | tofr => obtain ⟨f, st, rfl, -⟩ := exec_tofr_update h; exact sameButWorking_update s _ _ _ _ _
  | frfr => obtain ⟨d, st, rfl, -⟩ := exec_frfr_update h; exact sameButWorking_update s _ _ _ _ _
  | fpar a w => obtain ⟨g, st, rfl, -⟩ := exec_fpar_update h; exact sameButWorking_update s _ _ _ _ _
  | wrg => obtain ⟨g, st, rfl, -⟩ := exec_wrg_update h; exact sameButWorking_update s _ _ _ _ _
  | rdg => obtain ⟨f, m, st, rfl, -⟩ := exec_rdg_update h; exact sameButWorking_update s _ _ _ _ _
  | enc => exact absurd rfl henc
  | dec => exact absurd rfl hdec
  | clr => obtain ⟨st, rfl⟩ := exec_clr_update h; exact sameButWorking_update s _ _ _ _ _

/-- Settles O23: the memories and counters by `exec_sameButWorking`, the working registers and the latch by the update
each of the five commands makes. -/
theorem registerCommandsFrame : Obligations.RegisterCommandsFrame := by
  intro i s t hwf hi h
  have hframe : SameButWorking s t := exec_sameButWorking (by rintro rfl; simp at hi) (by rintro rfl; simp at hi) h
  refine ⟨hframe.bytes, hframe.own, hframe.pxc, hframe.gix, hframe.npix, hframe.nch, hframe.mlen, ?_⟩
  rcases hi with rfl | rfl | ⟨a, w, rfl⟩ | rfl | rfl
  · obtain ⟨f, st, rfl, herrf, hcode⟩ := exec_tofr_update h
    simp [herrf, hcode]
  · obtain ⟨d, st, rfl, herrf, hcode⟩ := exec_frfr_update h
    simp [herrf, hcode]
  · obtain ⟨g, st, rfl, hother, hlatch⟩ := exec_fpar_update h
    obtain ⟨herrf, hcode⟩ := hlatch (by simpa [Instr.wellFormed] using hwf)
    simpa [herrf, hcode] using hother
  · obtain ⟨g, st, rfl, herrf, hcode⟩ := exec_wrg_update h
    simp [herrf, hcode]
  · obtain ⟨f, m, st, rfl, herrf, hcode⟩ := exec_rdg_update h
    simp [herrf, hcode]

/-! ### All nine commands -/

theorem DecPasses.endCommand {s t : State} {i e : Nat} (P : DecPasses s t i e) :
    DecPasses s (Machine.endCommand t) i e :=
  { P with
    byte := fun j hij hje hj => (memRead_endCommand .msg j t).trans (P.byte j hij hje hj)
    other := fun b hb => (memRead_endCommand .msg b t).trans (P.other b hb) }

/-- What DEC can do: it is dropped, its check fails and STATUS alone changes, or it scans some number of groups
(43_orchestration.md R83). -/
theorem exec_dec_cases {s t : State} (h : exec .dec s = .next t) :
    t = s ∨ (∃ st, t = { s with status := st }) ∨ ∃ e, DecPasses (decStart (beginCommand s)) t 0 e := by
  rcases accept_cases h with ⟨-, rfl⟩ | ⟨ha, rfl⟩
  · exact .inl rfl
  · by_cases hc : s.ConfigLegal
    · rw [exec_dec_legal s ha hc] at h
      injection h with h
      rw [← h]
      rcases decRun_passes (beginCommand s) with ⟨e, -, -, -, P, -⟩ | ⟨-, P, -⟩
      · exact .inr (.inr ⟨_, P.endCommand⟩)
      · exact .inr (.inr ⟨_, P.endCommand⟩)
    · have he : decError (beginCommand s) = some .badConfig := by
        rw [decError_beginCommand, decError, if_pos ((configLegal_false_iff s).2 hc)]
      refine .inr (.inl ⟨(Status.raised .badConfig).ended, ?_⟩)
      rw [runCommand, decBody, he]
      rfl

/-- No command writes CAR or the image's description, and none the parameters (10_state.md R25, 00_scope.md R8). -/
theorem exec_keeps_image {i : Instr} {s t : State} (h : exec i s = .next t) :
    t.npix = s.npix ∧ t.nch = s.nch ∧ t.params = s.params ∧ SameBytesIn .car s t := by
  by_cases henc : i = .enc
  · subst henc
    rcases exec_enc_cases h with rfl | ⟨st, rfl⟩ | ⟨-, P⟩
    · exact ⟨rfl, rfl, rfl, fun _ => rfl⟩
    · exact ⟨rfl, rfl, rfl, fun _ => rfl⟩
    · exact ⟨P.npix, P.nch, P.own.1, memRead_of_car P.car P.own.1⟩
  · by_cases hdec : i = .dec
    · subst hdec
      rcases exec_dec_cases h with rfl | ⟨st, rfl⟩ | ⟨e, P⟩
      · exact ⟨rfl, rfl, rfl, fun _ => rfl⟩
      · exact ⟨rfl, rfl, rfl, fun _ => rfl⟩
      · exact ⟨P.npix, P.nch, P.params, memRead_of_car P.car P.params⟩
    · have hframe := exec_sameButWorking henc hdec h
      exact ⟨hframe.npix, hframe.nch, hframe.own.1, hframe.bytes .car⟩

/-- Only DEC writes the payload and its length. -/
theorem exec_keeps_payload {i : Instr} {s t : State} (hdec : i ≠ .dec) (h : exec i s = .next t) :
    t.mlen = s.mlen ∧ SameBytesIn .msg s t := by
  by_cases henc : i = .enc
  · subst henc
    rcases exec_enc_cases h with rfl | ⟨st, rfl⟩ | ⟨-, P⟩
    · exact ⟨rfl, fun _ => rfl⟩
    · exact ⟨rfl, fun _ => rfl⟩
    · exact ⟨P.mlen, memRead_of_msg P.msg P.own.1⟩
  · have hframe := exec_sameButWorking henc hdec h
    exact ⟨hframe.mlen, hframe.bytes .msg⟩

/-- Only ENC writes OUT. -/
theorem exec_keeps_out {i : Instr} {s t : State} (henc : i ≠ .enc) (h : exec i s = .next t) : SameBytesIn .out s t := by
  by_cases hdec : i = .dec
  · subst hdec
    rcases exec_dec_cases h with rfl | ⟨st, rfl⟩ | ⟨e, P⟩
    · exact fun _ => rfl
    · exact fun _ => rfl
    · exact memRead_of_out P.out P.params
  · exact (exec_sameButWorking henc hdec h).bytes .out

/-- Settles O32: what each memory and each counter keeps, then the update each command makes. -/
theorem onlyNamedStateChanges : Obligations.OnlyNamedStateChanges := by
  intro i s t h
  obtain ⟨hnpix, hnch, hparams, hcar⟩ := exec_keeps_image h
  refine ⟨hnpix, hnch, hparams, hcar, fun hdec => exec_keeps_payload hdec h, ?decMsg, fun henc => exec_keeps_out henc h,
    ?encOut, ?counters, ?nop, ?tofr, ?frfr, ?fpar, ?wrg, ?rdg, ?clr⟩
  case decMsg => rintro rfl; exact exec_dec_msg_beyond h
  case encOut => rintro rfl; exact exec_enc_out_beyond h
  case counters =>
    intro henc hdec
    have hframe := exec_sameButWorking henc hdec h
    exact ⟨hframe.pxc, hframe.gix⟩
  case nop => rintro rfl; cases h; rfl
  case tofr => rintro rfl; obtain ⟨f, st, rfl, -⟩ := exec_tofr_update h; rfl
  case frfr => rintro rfl; obtain ⟨d, st, rfl, -⟩ := exec_frfr_update h; rfl
  case fpar => rintro a w rfl; obtain ⟨g, st, rfl, hother, -⟩ := exec_fpar_update h; exact ⟨rfl, hother⟩
  case wrg => rintro rfl; obtain ⟨g, st, rfl, -⟩ := exec_wrg_update h; rfl
  case rdg => rintro rfl; obtain ⟨f, m, st, rfl, -⟩ := exec_rdg_update h; rfl
  case clr => rintro rfl; obtain ⟨st, rfl⟩ := exec_clr_update h; rfl

end Sys2Proof.Machine
end

section
/-! PROOFS of the state family, 2: what the host sees and does between commands: the layout of STATUS, register reads and
writes (10_state.md R19), issuing a command (44_system.md R88) and the reset input (70_reset_and_hazards.md R104). -/

namespace Sys2Proof.Machine

/-! ### STATUS as a byte -/

/-- STATUS is CODE with four bits put below it, bit 3 the constant 0. -/
theorem Status.toByte_eq_concat (st : Status) :
    st.toByte = (((st.code.concat false).concat st.errf).concat st.done).concat st.busy := rfl

/-- Settles O36: each bit by its place in `Status.toByte_eq_concat`, CODE as the number without the four low bits. -/
theorem statusLayout : Obligations.StatusLayout := by
  intro st
  rw [Status.toByte_eq_concat]
  refine ⟨?busy, ?done, ?errf, ?reserved, ?code⟩
  case busy => exact BitVec.getLsbD_concat_zero
  case done => simp only [BitVec.getLsbD_concat_succ, BitVec.getLsbD_concat_zero]
  case errf => simp only [BitVec.getLsbD_concat_succ, BitVec.getLsbD_concat_zero]
  case reserved => simp only [BitVec.getLsbD_concat_succ, BitVec.getLsbD_concat_zero]
  case code =>
    have herrf := st.errf.toNat_lt
    have hdone := st.done.toNat_lt
    have hbusy := st.busy.toNat_lt
    simp only [BitVec.toNat_concat, Bool.toNat_false]
    omega

/-! ### Issuing a command -/

theorem decodeTableWord_eq_some {nbits w : Nat} {i : Instr} (h : decodeTableWord nbits w = some i) :
    decode (commandWord (tableWord nbits w)) = .ok i := by
  unfold decodeTableWord at h
  split at h
  next j hj => injection h with h; rw [hj, h]
  next => cases h

/-- With BUSY = 0 a step on a write of a legal word to CMD is the command. -/
theorem step_of_command {s : State} {x : Word} {rest : List HostAction} {i : Instr} (hp : s.pending = .wreg 0 x :: rest)
    (hb : s.status.busy = false) (hd : decode (commandWord x) = .ok i) : step s = exec i { s with pending := rest } := by
  rw [step_of_pending hp hb, hostAct_cmd, issue_ok hd]

/-- Settles O37: a table word is the host's write of its value to CMD, put before the actions that stood pending. -/
theorem stepRunsDecodedCommand : Obligations.StepRunsDecodedCommand :=
  ⟨fun _ _ _ _ => step_of_command,
    fun s nbits w _ hb hd => step_of_command (s := s.withFetchWord nbits w) rfl hb (decodeTableWord_eq_some hd)⟩

/-! ### Register numbers -/

/-- The numbers that name no register (10_state.md R11). -/
theorem regOfNumber_eq_none {n : Nat} (h : (0x0A ≤ n ∧ n ≤ 0x0F) ∨ 0x19 ≤ n) : regOfNumber n = none := by
  have hg : ¬ (0x10 ≤ n ∧ n ≤ 0x18) := by omega
  simp only [regOfNumber, dif_neg hg]
  repeat rw [if_neg (by omega)]

/-! ### Host writes -/

/-- A host write to a register other than CMD. -/
theorem hostWriteReg_of_reg {n : Nat} {r : Reg} (hn : regOfNumber n = some r) (hr : r ≠ .cmd) (v : Word) (s : State) :
    hostWriteReg n v s = .next (writeReg r v s) := by
  simp [hostWriteReg, hn, hr]

theorem hostWriteReg_of_none {n : Nat} (hn : regOfNumber n = none) (v : Word) (s : State) :
    hostWriteReg n v s = .next s := by
  simp [hostWriteReg, hn]

/-- Settles O39: the step is the register write, and the number names the register. -/
theorem hostRegisterWrites : Obligations.HostRegisterWrites := by
  intro s n v rest hp hb
  have hstep : step s = hostWriteReg n v { s with pending := rest } := step_of_pending hp hb
  have hwrite : ∀ r, r ≠ .cmd → regOfNumber n = some r → step s = .next (writeReg r v { s with pending := rest }) :=
    fun r hr hn => hstep.trans (hostWriteReg_of_reg hn hr v _)
  simp only [BitVec.ofNat_toNat]
  refine ⟨?npix, ?nch, ?mlen, ?d, ?f, ?m, ?g, ?noEffect⟩
  case npix => rintro rfl; exact hwrite .npix nofun rfl
  case nch => rintro rfl; exact hwrite .nch nofun rfl
  case mlen => rintro rfl; exact hwrite .mlen nofun rfl
  case d => rintro rfl; exact hwrite .d nofun rfl
  case f => rintro rfl; exact hwrite .f nofun rfl
  case m => rintro rfl; exact hwrite .m nofun rfl
  case g => rintro k rfl; exact hwrite (.g k) nofun (regOfNumber_g k)
  case noEffect =>
    rintro (rfl | rfl | rfl | hn)
    · exact hwrite .status nofun rfl
    · exact hwrite .pxc nofun rfl
    · exact hwrite .gix nofun rfl
    · exact hstep.trans (hostWriteReg_of_none (regOfNumber_eq_none hn) v _)

/-! ### Host reads -/

theorem hostReadReg_of_reg {n : Nat} {r : Reg} (hn : regOfNumber n = some r) (s : State) :
    hostReadReg n s = readReg r s := by
  simp [hostReadReg, hn]

theorem hostReadReg_of_none {n : Nat} (hn : regOfNumber n = none) (s : State) : hostReadReg n s = 0 := by
  simp [hostReadReg, hn]

/-- A register narrower than the host's data path is zero-extended to it, which keeps its number (10_state.md R19). -/
theorem toNat_hostReadReg {n w : Nat} {s : State} {x : BitVec w} (hw : w ≤ 32) (h : hostReadReg n s = x.setWidth 32) :
    (hostReadReg n s).toNat = x.toNat := by
  rw [h, BitVec.toNat_setWidth_of_le hw]

/-- No register shows the host's pending actions. -/
theorem readReg_pending (r : Reg) (s : State) (rest : List HostAction) :
    readReg r { s with pending := rest } = readReg r s := by
  cases r <;> rfl

/-- Settles O40: the reply is the register read, taken with the read off the pending list, which no register shows. -/
theorem hostRegisterReads : Obligations.HostRegisterReads := by
  intro s n rest hp hb
  have hread : ∀ r, regOfNumber n = some r → hostReadReg n { s with pending := rest } = readReg r s :=
    fun r hn => (hostReadReg_of_reg hn _).trans (readReg_pending r s rest)
  refine ⟨hostReadReg n { s with pending := rest }, step_of_pending hp hb,
    ?status, ?npix, ?nch, ?mlen, ?pxc, ?gix, ?d, ?f, ?m, ?g, ?zero⟩
  case npix => rintro rfl; exact hread .npix rfl
  case mlen => rintro rfl; exact hread .mlen rfl
  case pxc => rintro rfl; exact hread .pxc rfl
  case gix => rintro rfl; exact hread .gix rfl
  case status => rintro rfl; exact toNat_hostReadReg (by decide) (hread .status rfl)
  case nch => rintro rfl; exact toNat_hostReadReg (by decide) (hread .nch rfl)
  case d => rintro rfl; exact toNat_hostReadReg (by decide) (hread .d rfl)
  case f => rintro rfl; exact toNat_hostReadReg (by decide) (hread .f rfl)
  case m => rintro rfl; exact toNat_hostReadReg (by decide) (hread .m rfl)
  case g => rintro k rfl; exact toNat_hostReadReg (by decide) (hread (.g k) (regOfNumber_g k))
  case zero =>
    rintro (rfl | hn)
    · exact hread .cmd rfl
    · exact hostReadReg_of_none (regOfNumber_eq_none hn) _

/-! ### Reset -/

/-- Settles O44: STATUS by its byte, the other registers as `State.reset` writes them out. -/
theorem resetValues : Obligations.ResetValues :=
  ⟨by decide, rfl, rfl, rfl, rfl, rfl, rfl, rfl, rfl, by decide⟩

theorem registersReset_resetMachine (s : State) : RegistersReset (resetMachine s) := by
  refine ⟨?status, resetMachine_npix s, resetMachine_nch s, resetMachine_mlen s, resetMachine_pxc s, resetMachine_gix s,
    resetMachine_d s, resetMachine_f s, resetMachine_m s, ?g⟩
  case status => rw [resetMachine_status]; decide
  case g => rw [resetMachine_g]; decide

/-- The reset input is taken whether or not a command is executing (70_reset_and_hazards.md R104, R108). -/
theorem step_of_reset {s : State} {rest : List HostAction} (hp : s.pending = .reset :: rest) :
    step s = .next (resetMachine { s with pending := rest }) := by
  simp [step, hostStep, hp, allowedWhileBusy, hostAct]

/-- Settles O45: the step is `resetMachine`, whatever BUSY is. -/
theorem resetActionResetsRegisters : Obligations.ResetActionResetsRegisters := by
  intro s rest hp
  refine ⟨_, step_of_reset hp, registersReset_resetMachine _, resetMachine_params _, resetMachine_pending _,
    resetMachine_reply _, fun _ sp off hoff _ => ?_⟩
  have hcap : off < ({ s with pending := rest } : State).cap sp := by cases sp <;> exact hoff
  rw [memRead_resetMachine sp off _ hcap]
  cases sp <;> rfl

end Sys2Proof.Machine
end

section
/-! PROOFS of the state family, 3: two states that agree on what ENC and DEC read get the same results from them
(20_memory.md R44, R46, 70_reset_and_hazards.md R111). -/

namespace Sys2Proof.Machine

/-- The two states hold the same image in CAR, with the same parameters. -/
structure SameImage (s s' : State) : Prop where
  params : s'.params = s.params
  npix : s'.npix = s.npix
  nch : s'.nch = s.nch
  car : SameBytesIn .car s s'

namespace SameImage
variable {s s' : State} (E : SameImage s s')
include E

theorem slotAt (i k : Nat) : slotAt s' i k = Machine.slotAt s i k := by
  unfold Machine.slotAt
  rw [E.nch]

theorem imageCells : imageCells s' = Machine.imageCells s := by
  unfold Machine.imageCells
  rw [E.npix, E.nch]

theorem configLegal (h : s.ConfigLegal) : s'.ConfigLegal := by
  unfold State.ConfigLegal
  rwa [E.npix, E.nch, E.params]

theorem carrierGroup (i : Nat) : carrierGroup s' i = Machine.carrierGroup s i := by
  unfold Machine.carrierGroup
  simp only [E.slotAt, E.car _]

theorem stopGroup_iff (i : Nat) : StopGroup s' i ↔ StopGroup s i := by
  unfold StopGroup
  rw [E.npix, E.nch, E.car]

/-- A ready ENC stays ready where the payload's length and STATUS's latch agree too. -/
theorem encReady (hmlen : s'.mlen = s.mlen) (ha : s'.Accepting) (h : s.EncReady) : s'.EncReady := by
  obtain ⟨-, hc, hsizes⟩ := h
  refine ⟨ha, E.configLegal hc, ?_⟩
  rwa [hmlen, E.params, E.npix]

end SameImage

/-! ### ENC -/

theorem payloadBit_congr {s s' : State} (hmlen : s'.mlen = s.mlen) (hmsg : SameBytesIn .msg s s') (i : Nat) (k : Fin 9) :
    payloadBit s' i k = payloadBit s i k := by
  unfold payloadBit
  rw [hmsg, hmlen]

/-- ENC's image in OUT is a function of CAR and the payload: a slot of a written group holds the forced byte, every other
cell of the image the carrier's (43_orchestration.md R85). -/
theorem EncDone.out_congr {s s' t t' : State} (D : EncDone s t) (D' : EncDone s' t') (E : SameImage s s')
    (hmlen : s'.mlen = s.mlen) (hmsg : SameBytesIn .msg s s') {o : Nat} (ho : o < imageCells s) :
    memRead .out o t' = memRead .out o t := by
  by_cases hslot : ∃ i, i < s.mlen.toNat ∧ ∃ k : Fin 9, o = slotAt s i k
  · obtain ⟨i, hi, k, rfl⟩ := hslot
    rw [D.slot i hi k, ← E.slotAt, D'.slot i (hmlen ▸ hi) k, E.car, payloadBit_congr hmlen hmsg]
  · have hother : ∀ i, i < s.mlen.toNat → ∀ k : Fin 9, o ≠ slotAt s i k :=
      fun i hi k e => hslot ⟨i, hi, k, e⟩
    have hother' : ∀ i, i < s'.mlen.toNat → ∀ k : Fin 9, o ≠ slotAt s' i k := fun i hi k => by
      rw [E.slotAt]
      exact hother i (hmlen ▸ hi) k
    rw [D.other o hother, D'.other o hother', E.imageCells, if_pos ho, if_pos ho, E.car]

/-- The group registers ENC ends with are those of the last group it wrote. -/
theorem EncDone.g_congr {s s' t t' : State} (D : EncDone s t) (D' : EncDone s' t') (E : SameImage s s')
    (hmlen : s'.mlen = s.mlen) (hmsg : SameBytesIn .msg s s') : t'.g = t.g := by
  apply Vector.ext
  intro k hk
  have hg := D.g ⟨k, hk⟩
  have hg' := D'.g ⟨k, hk⟩
  rw [hmlen, E.slotAt, E.car, payloadBit_congr hmlen hmsg] at hg'
  exact hg'.trans hg.symm

theorem enc_depends_on_inputs {s s' : State} (E : SameImage s s') (ha : s'.Accepting) (hmlen : s'.mlen = s.mlen)
    (hmsg : SameBytesIn .msg s s') (h : s.EncReady) :
    ∃ t t', exec .enc s = .next t ∧ exec .enc s' = .next t'
      ∧ (∀ o, o < imageCells s → memRead .out o t' = memRead .out o t)
      ∧ t'.g = t.g ∧ t'.f = t.f ∧ t'.m = t.m ∧ t'.d = t.d ∧ t'.pxc = t.pxc ∧ t'.gix = t.gix := by
  obtain ⟨t, ht, D⟩ := exec_enc_done s h
  obtain ⟨t', ht', D'⟩ := exec_enc_done s' (E.encReady hmlen ha h)
  refine ⟨t, t', ht, ht', fun o ho => D.out_congr D' E hmlen hmsg ho, D.g_congr D' E hmlen hmsg, ?f, ?m, ?d, ?pxc, ?gix⟩
  case f => rw [D'.f, D.f, hmlen, hmsg]
  case m => rw [D'.m, D.m]
  case d => rw [D'.d, D.d, hmlen, hmsg]
  case pxc => exact BitVec.eq_of_toNat_eq (by rw [D'.pxc, D.pxc, hmlen])
  case gix => exact BitVec.eq_of_toNat_eq (by rw [D'.gix, D.gix, hmlen])

/-! ### DEC -/

/-- Scans of the same number of groups leave the same counters. -/
theorem DecPasses.counters_congr {s s' t t' : State} {e : Nat} (P : DecPasses s t 0 e) (P' : DecPasses s' t' 0 e) :
    t'.pxc = t.pxc ∧ t'.gix = t.gix :=
  ⟨BitVec.eq_of_toNat_eq (P'.pxc.trans P.pxc.symm), BitVec.eq_of_toNat_eq (P'.gix.trans P.gix.symm)⟩

/-- Two DECs ended alike: the same success or failure, MLEN and counters, and the same bytes of MSG produced. -/
def SameDecResult (t t' : State) : Prop :=
  t'.status.done = t.status.done ∧ t'.status.errf = t.status.errf ∧ t'.mlen = t.mlen ∧ t'.pxc = t.pxc ∧ t'.gix = t.gix
    ∧ ∀ i, i < t.gix.toNat → memRead .msg i t' = memRead .msg i t

section
variable {s s' : State} (E : SameImage s s') (hp : s.params.Ok) (ha : s.Accepting) (ha' : s'.Accepting)
  (hc : s.ConfigLegal)
include E hp ha ha' hc

theorem dec_stop_depends_on_image {n : Nat} (hstop : StopGroup s n) (hfirst : ∀ j, j < n → ¬ StopGroup s j) :
    ∃ t t', exec .dec s = .next t ∧ exec .dec s' = .next t' ∧ SameDecResult t t' := by
  obtain ⟨t, ht, P, hmlen, hst, hbyte⟩ := exec_dec_stop s n hp ha hc hstop hfirst
  obtain ⟨t', ht', P', hmlen', hst', hbyte'⟩ := exec_dec_stop s' n (E.params.symm ▸ hp) ha' (E.configLegal hc)
    ((E.stopGroup_iff n).2 hstop) (fun j hj => (E.stopGroup_iff j).not.2 (hfirst j hj))
  obtain ⟨hpxc, hgix⟩ := P.counters_congr P'
  refine ⟨t, t', ht, ht', by rw [hst', hst]; rfl, ?errf, BitVec.eq_of_toNat_eq (hmlen'.trans hmlen.symm), hpxc, hgix,
    fun i hi => ?byte⟩
  case errf => rw [hst', hst]; exact ha'.trans ha.symm
  case byte =>
    have hin : i ≤ n := by rw [P.gix] at hi; omega
    rw [hbyte' i hin, hbyte i hin, E.carrierGroup]

theorem dec_noStop_depends_on_image (hnone : ∀ j, ¬ StopGroup s j) :
    ∃ t t', exec .dec s = .next t ∧ exec .dec s' = .next t' ∧ SameDecResult t t' := by
  obtain ⟨t, ht, P, hmlen, hst⟩ := exec_dec_noStop s ha hc hnone
  obtain ⟨t', ht', P', hmlen', hst'⟩ := exec_dec_noStop s' ha' (E.configLegal hc)
    (fun j => (E.stopGroup_iff j).not.2 (hnone j))
  rw [E.npix] at P'
  obtain ⟨hpxc, hgix⟩ := P.counters_congr P'
  refine ⟨t, t', ht, ht', by rw [hst', hst], by rw [hst', hst], hmlen'.trans hmlen.symm, hpxc, hgix, fun i hi => ?_⟩
  have hin : i < s.npix.toNat / 3 := P.gix ▸ hi
  have hcap : i < s.params.msgBytes := group_lt_msgBytes s hp hc i hin
  have hbyte : memRead .msg i t = (readGroup (carrierGroup s i)).1 := P.byte i (Nat.zero_le i) hin hcap
  have hbyte' : memRead .msg i t' = (readGroup (carrierGroup s' i)).1 :=
    P'.byte i (Nat.zero_le i) hin (E.params.symm ▸ hcap)
  rw [hbyte', hbyte, E.carrierGroup]

/-- The two states have the same stop groups, so either both scans end at the first of them or neither finds one. -/
theorem dec_depends_on_image : ∃ t t', exec .dec s = .next t ∧ exec .dec s' = .next t' ∧ SameDecResult t t' := by
  by_cases h : ∃ n, StopGroup s n
  · obtain ⟨n, hstop, hfirst⟩ := Nat.findX h
    exact dec_stop_depends_on_image E hp ha ha' hc hstop hfirst
  · exact dec_noStop_depends_on_image E hp ha ha' hc (not_exists.1 h)

end

/-- Settles O51: agreement on CAR and its description is `SameImage`; ENC and DEC by their big-step forms. -/
theorem resultsDependOnInputsAlone : Obligations.ResultsDependOnInputsAlone := by
  intro s s' hp hparams ha ha' hnpix hnch hcar
  have E : SameImage s s' := ⟨hparams, hnpix, hnch, hcar⟩
  exact ⟨enc_depends_on_inputs E ha', dec_depends_on_image E hp ha ha'⟩

end Sys2Proof.Machine
end

section
/-! PROOFS of the memory family: where the slots of a group lie (20_memory.md R35, R43), loading and storing a group
(R48), and the host's reads and writes of the memories (R32, R40). -/

namespace Sys2Proof.Machine

/-! ### The slots of a group -/

/-- No slot of a group lies beyond its last: channel 2 of its third pixel (20_memory.md R43). -/
theorem slotOffset_le_last (nch p k : Nat) (hk : k ≤ 8) : slotOffset nch p k ≤ (p + 2) * nch + 2 := by
  have hpixel : (p + k / 3) * nch ≤ (p + 2) * nch := Nat.mul_le_mul_right nch (by omega)
  have hchannel : k % 3 ≤ 2 := by omega
  exact Nat.add_le_add hpixel hchannel

/-- Settles O55: the last slot is channel 2 of pixel 3i + 2, and a pixel has at least three channels. -/
theorem slotsDistinctInsideImage : Obligations.SlotsDistinctInsideImage := by
  refine ⟨fun nch npix i k hn hi hk => ⟨slotOffset_le_last nch (3 * i) k hk, ?lastPixel, ?image⟩,
    fun nch i j k l hn hk hl => slotOffset_inj hn (by omega) (by omega)⟩
  case lastPixel =>
    have hpixel : (3 * i + 3) * nch = (3 * i + 2) * nch + nch := Nat.succ_mul (3 * i + 2) nch
    omega
  case image => exact Nat.mul_le_mul_right nch hi

/-! ### Writes change the memories alone -/

/-- A one-byte write is not seen once all three memories are replaced: it changes nothing else (20_memory.md R32). -/
theorem memWrite_withMemories (sp : Space) (off : Nat) (v : Byte) (s : State) (car out msg : Memory) :
    { memWrite sp off v s with car := car, out := out, msg := msg } = { s with car := car, out := out, msg := msg } := by
  unfold memWrite
  split
  · cases sp <;> rfl
  · rfl

theorem memWrite_eq_update (sp : Space) (off : Nat) (v : Byte) (s : State) :
    memWrite sp off v s
      = { s with
          car := (memWrite sp off v s).car, out := (memWrite sp off v s).out, msg := (memWrite sp off v s).msg } :=
  memWrite_withMemories sp off v s _ _ _

theorem storeGroup_eq_update (sp : Space) (s : State) :
    storeGroup sp s
      = { s with car := (storeGroup sp s).car, out := (storeGroup sp s).out, msg := (storeGroup sp s).msg } :=
  storeGroup_keeps (fun t => { t with
      car := (storeGroup sp s).car, out := (storeGroup sp s).out, msg := (storeGroup sp s).msg })
    sp (fun a v t => memWrite_withMemories sp a v t _ _ _) s

/-! ### Group load and store -/

theorem loadGroup_slot (sp : Space) (s : State) (k : Fin 9) :
    (loadGroup sp s).g[k] = memRead sp (slotOffset s.nch.toNat s.pxc.toNat k.val) s := by
  simp

/-- The image of a legal configuration fits into either pixel memory (10_state.md R22). -/
theorem imageCells_le_cap {s : State} {sp : Space} (hc : s.ConfigLegal) (hsp : sp ≠ .msg) :
    s.npix.toNat * s.nch.toNat ≤ s.cap sp := by
  obtain ⟨-, -, hfit⟩ := hc
  cases sp with
  | car => exact hfit
  | out => exact hfit
  | msg => exact absurd rfl hsp

/-- At a group of the image every register of the group is stored (20_memory.md R48). -/
theorem memRead_storeGroup_group {s : State} {sp : Space} (hc : s.ConfigLegal) (hsp : sp ≠ .msg)
    (hgroup : s.pxc.toNat % 3 = 0) (hin : s.pxc.toNat + 3 ≤ s.npix.toNat) (k : Fin 9) :
    memRead sp (slotOffset s.nch.toNat s.pxc.toNat k.val) (storeGroup sp s) = s.g[k] := by
  have hn : 3 ≤ s.nch.toNat := hc.1
  have hp : s.pxc.toNat = 3 * (s.pxc.toNat / 3) := by omega
  have himage : slotOffset s.nch.toNat (3 * (s.pxc.toNat / 3)) k.val < s.npix.toNat * s.nch.toNat :=
    slotOffset_lt hn k.isLt (by omega)
  have hread := memRead_storeGroup_slot sp s (s.pxc.toNat / 3) k hp hn (himage.trans_le (imageCells_le_cap hc hsp))
  rwa [← hp] at hread

/-- Settles O27: the slots by the laws of `loadGroup` and `storeGroup`; slot k is channel k mod 3 of pixel PXC + k div 3,
so a byte that is no such channel is no slot. -/
theorem groupLoadAndStore : Obligations.GroupLoadAndStore := by
  refine ⟨fun s sp => ⟨rfl, loadGroup_slot sp s⟩, fun s sp hc hsp hgroup hin => ⟨?slots, ?others, ?registers⟩, by decide⟩
  case slots => exact memRead_storeGroup_group hc hsp hgroup hin
  case others =>
    intro sp' o hother
    refine memRead_storeGroup_other sp sp' s o fun hspace k => ?_
    exact hother hspace (s.pxc.toNat + k.val / 3) (k.val % 3) (by omega) (by omega) (by omega)
  case registers => exact storeGroup_eq_update sp s

/-! ### Host accesses to the memories -/

theorem memRead_of_cap_le {sp : Space} {off : Nat} {s : State} (h : s.cap sp ≤ off) : memRead sp off s = 0 :=
  if_neg (Nat.not_lt.2 h)

theorem memWrite_of_cap_le {sp : Space} {off : Nat} {s : State} (h : s.cap sp ≤ off) (v : Byte) :
    memWrite sp off v s = s :=
  if_neg (Nat.not_lt.2 h)

/-- The host's pending actions are no part of a memory. -/
theorem memRead_pending (sp : Space) (off : Nat) (s : State) (rest : List HostAction) :
    memRead sp off { s with pending := rest } = memRead sp off s := by
  cases sp <;> rfl

theorem cap_pending (sp : Space) (s : State) (rest : List HostAction) :
    ({ s with pending := rest } : State).cap sp = s.cap sp := by
  cases sp <;> rfl

section HostWrite
variable {s : State} {sp : Space} {o : Nat} {v : Byte} {rest : List HostAction}

theorem step_of_wmem (hp : s.pending = .wmem sp o v :: rest) (hb : s.status.busy = false) :
    step s = .next (memWrite sp o v { s with pending := rest }) :=
  step_of_pending hp hb

theorem hostWriteMem_inside (hp : s.pending = .wmem sp o v :: rest) (hb : s.status.busy = false) (ho : o < s.cap sp) :
    ∃ t, step s = .next t ∧ memRead sp o t = v
      ∧ (∀ sp' o', ¬ (sp' = sp ∧ o' = o) → memRead sp' o' t = memRead sp' o' s)
      ∧ t = { s with pending := rest, car := t.car, out := t.out, msg := t.msg } := by
  refine ⟨_, step_of_wmem hp hb, ?written, fun sp' o' hother => ?others, memWrite_eq_update sp o v _⟩
  case written => rw [memRead_memWrite, if_pos ⟨rfl, rfl, (cap_pending sp s rest).symm ▸ ho⟩]
  case others => rw [memRead_memWrite, if_neg fun ⟨hspace, hoff, _⟩ => hother ⟨hspace, hoff⟩, memRead_pending]

theorem hostWriteMem_beyond (hp : s.pending = .wmem sp o v :: rest) (hb : s.status.busy = false) (ho : s.cap sp ≤ o) :
    step s = .next { s with pending := rest } := by
  rw [step_of_wmem hp hb, memWrite_of_cap_le ((cap_pending sp s rest).symm ▸ ho)]

end HostWrite

/-- A host read replies with the byte, zero-extended (20_memory.md R32). -/
theorem step_of_rmem {s : State} {sp : Space} {o : Nat} {rest : List HostAction} (hp : s.pending = .rmem sp o :: rest)
    (hb : s.status.busy = false) :
    step s = .next { s with pending := rest, reply := some ((memRead sp o s).setWidth 32) } := by
  rw [step_of_pending hp hb, hostAct, memRead_pending]

/-- Settles O41: a step is the one-byte access, taken with the action off the pending list; by the capacity. -/
theorem hostMemoryAccesses : Obligations.HostMemoryAccesses := by
  refine ⟨fun s sp o v rest hp hb => ⟨hostWriteMem_inside hp hb, hostWriteMem_beyond hp hb⟩,
    fun s sp o rest hp hb => ⟨_, step_of_rmem hp hb, ?byte, fun ho => ?beyond⟩⟩
  case byte => exact BitVec.toNat_setWidth_of_le (by decide)
  case beyond => rw [memRead_of_cap_le ho]; rfl

end Sys2Proof.Machine
end

section
/-! PROOFS of the encoding family: decoder and encoder are inverse (30_encoding.md R55, R57, R58), the encoder's words are
the legal ones, and what issuing any other word does. -/

namespace Sys2Proof.Machine

/-! ### A word and its fields -/

theorem toNat_wordOf {op a z w : Nat} (hop : op < 16) (ha : a < 16) (hz : z < 128) (hw : w < 2) :
    (wordOf op a z w).toNat = 4096 * op + 256 * a + 2 * z + w := by
  rw [wordOf, BitVec.toNat_ofNat]
  omega

theorem toNat_fields (c : CommandWord) :
    c.toNat = 4096 * (opField c).toNat + 256 * (aField c).toNat + 2 * (zField c).toNat + (wField c).toNat := by
  obtain ⟨op, a, z, w, hop, ha, hz, hw, hc, -⟩ := exists_wordOf c
  obtain ⟨eop, ea, ez, ew, -⟩ := fields_wordOf op a z w hop ha hz hw
  have hbit : (decide (w = 1)).toNat = w := by interval_cases w <;> rfl
  rw [hc, eop, ea, ez, ew, hbit, toNat_wordOf hop ha hz hw]
  simp only [BitVec.toNat_ofNat]
  omega

theorem toNat_operandBits (c : CommandWord) :
    (operandBits c).toNat = 256 * (aField c).toNat + 2 * (zField c).toNat + (wField c).toNat := by
  have h : (operandBits c).toNat = c.toNat % 4096 := by simp [operandBits]
  have := (aField c).isLt
  have := (zField c).isLt
  have := (wField c).toNat_lt
  rw [h, toNat_fields]
  omega

theorem word_ext_operandBits {c d : CommandWord} (hop : opField c = opField d) (h : operandBits c = operandBits d) :
    c = d := by
  have hbits : (operandBits c).toNat = (operandBits d).toNat := congrArg BitVec.toNat h
  rw [toNat_operandBits, toNat_operandBits] at hbits
  apply BitVec.eq_of_toNat_eq
  rw [toNat_fields, toNat_fields d, hop]
  omega

theorem word_ext_fields {c d : CommandWord} (hop : opField c = opField d) (ha : aField c = aField d)
    (hz : zField c = zField d) (hw : wField c = wField d) : c = d := by
  apply BitVec.eq_of_toNat_eq
  rw [toNat_fields, toNat_fields d, hop, ha, hz, hw]

/-- FPAR's word keeps its two operands (30_encoding.md R56). -/
theorem fields_encode_fpar : ∀ (a : BitVec 4) (w : Bool),
    opField (encode (.fpar a w)) = 0x3#4 ∧ aField (encode (.fpar a w)) = a ∧ zField (encode (.fpar a w)) = 0#7
    ∧ wField (encode (.fpar a w)) = w := by
  decide

/-! ### Decoder and encoder are inverse -/

theorem decode_encode (i : Instr) (h : i.wellFormed = true) : decode (encode i) = .ok i := by
  cases i with
  | fpar a w =>
    have ha : a.toNat ≤ 8 := by simpa [Instr.wellFormed] using h
    obtain ⟨eop, ea, ez, ew⟩ := fields_encode_fpar a w
    simp [decode, eop, ea, ez, ew, ha]
  | nop => rfl
  | tofr => rfl
  | frfr => rfl
  | wrg => rfl
  | rdg => rfl
  | enc => rfl
  | dec => rfl
  | clr => rfl

theorem decode_of_encode_eq {i : Instr} {c : CommandWord} (hwf : i.wellFormed = true) (hc : encode i = c) :
    decode c = .ok i :=
  hc ▸ decode_encode i hwf

/-- Each branch of the decoder that answers a command has read every bit of its word. -/
theorem encode_of_decode {c : CommandWord} {i : Instr} (h : decode c = .ok i) : i.wellFormed = true ∧ encode i = c := by
  simp only [decode, ite_eq_iff, reduceCtorEq, and_false, false_or, or_false, Except.ok.injEq, not_not] at h
  rcases h with ⟨hop, hz, ha, rfl⟩ | ⟨-, hbits, h⟩
  · obtain ⟨eop, ea, ez, ew⟩ := fields_encode_fpar (aField c) (wField c)
    exact ⟨decide_eq_true ha, word_ext_fields (eop.trans hop.symm) ea (ez.trans hz.symm) ew⟩
  · have hword : ∀ d, opField c = opField d → operandBits d = 0#12 → d = c := fun d hop hd =>
      word_ext_operandBits hop.symm (hd.trans hbits.symm)
    rcases h with ⟨hop, rfl⟩ | ⟨-, ⟨hop, rfl⟩ | ⟨-, ⟨hop, rfl⟩ | ⟨-, ⟨hop, rfl⟩ | ⟨-, ⟨hop, rfl⟩ | ⟨-, ⟨hop, rfl⟩ |
      ⟨-, ⟨hop, rfl⟩ | ⟨-, hop, rfl⟩⟩⟩⟩⟩⟩⟩
    all_goals exact ⟨rfl, hword _ hop rfl⟩

/-- Settles O1: the encoder's word decodes back, and a decoded word is the encoder's. -/
theorem decodeEncodeAgree : Obligations.DecodeEncodeAgree := fun _ _ =>
  ⟨encode_of_decode, fun ⟨hwf, hc⟩ => decode_of_encode_eq hwf hc⟩

/-! ### The legal words -/

theorem legalWord_encode (i : Instr) : i.wellFormed = true → LegalWord (encode i) := by
  cases i with
  | nop => exact Laws.EncodeLegal.nop
  | tofr => exact Laws.EncodeLegal.tofr
  | frfr => exact Laws.EncodeLegal.frfr
  | fpar a w => exact Laws.EncodeLegal.fpar a w
  | wrg => exact Laws.EncodeLegal.wrg
  | rdg => exact Laws.EncodeLegal.rdg
  | enc => exact Laws.EncodeLegal.enc
  | dec => exact Laws.EncodeLegal.dec
  | clr => exact Laws.EncodeLegal.clr

theorem wellFormed_fpar_ofNat {a : Nat} (ha : a ≤ 8) (w : Bool) : (Instr.fpar (BitVec.ofNat 4 a) w).wellFormed = true := by
  have hmod : a % 2 ^ 4 = a := Nat.mod_eq_of_lt (by omega)
  rwa [Instr.wellFormed, BitVec.toNat_ofNat, hmod, decide_eq_true_iff]

theorem encode_fpar_eq_wordOf : ∀ a < 16, ∀ w < 2,
    encode (.fpar (BitVec.ofNat 4 a) (decide (w = 1))) = wordOf 3 a 0 w := by
  decide

/-- R57's two forms of a legal word are FPAR's and that of the eight commands with no operand. -/
theorem exists_encode_of_legalWord {c : CommandWord} (h : LegalWord c) : ∃ i, i.wellFormed = true ∧ encode i = c := by
  obtain ⟨op, a, z, w, -, ha, hz, hw, hc, eop, ea, ez, ew⟩ := exists_wordOf c
  rcases h with ⟨hop, hbits⟩ | ⟨hop, ha8, hz0⟩
  · obtain ⟨rfl, rfl, rfl⟩ : a = 0 ∧ z = 0 ∧ w = 0 := by omega
    rw [← eop] at hop
    rw [hc]
    simp only [List.mem_cons, List.not_mem_nil, or_false] at hop
    rcases hop with rfl | rfl | rfl | rfl | rfl | rfl | rfl | rfl
    · exact ⟨.nop, rfl, rfl⟩
    · exact ⟨.tofr, rfl, rfl⟩
    · exact ⟨.frfr, rfl, rfl⟩
    · exact ⟨.wrg, rfl, rfl⟩
    · exact ⟨.rdg, rfl, rfl⟩
    · exact ⟨.enc, rfl, rfl⟩
    · exact ⟨.dec, rfl, rfl⟩
    · exact ⟨.clr, rfl, rfl⟩
  · rw [← ea] at ha8
    refine ⟨.fpar (BitVec.ofNat 4 a) (decide (w = 1)), wellFormed_fpar_ofNat ha8 _, ?_⟩
    rw [encode_fpar_eq_wordOf a ha w hw, hc, eop.trans hop, ez.trans hz0]

theorem decode_ok_iff_legalWord (c : CommandWord) : (∃ i, decode c = .ok i) ↔ LegalWord c := by
  constructor
  · rintro ⟨i, hi⟩
    obtain ⟨hwf, rfl⟩ := encode_of_decode hi
    exact legalWord_encode i hwf
  · intro h
    obtain ⟨i, hwf, rfl⟩ := exists_encode_of_legalWord h
    exact ⟨i, decode_encode i hwf⟩

theorem decode_error_of_not_legalWord {c : CommandWord} (h : ¬ LegalWord c) : ∃ e, decode c = .error e := by
  cases hd : decode c with
  | error e => exact ⟨e, rfl⟩
  | ok i => exact absurd ((decode_ok_iff_legalWord c).1 ⟨i, hd⟩) h

/-- R57 by the fields of the word. -/
theorem legalWord_wordOf_iff {op a z w : Nat} (hop : op < 16) (ha : a < 16) (hz : z < 128) (hw : w < 2) :
    LegalWord (wordOf op a z w) ↔ (op ∈ [0, 1, 2, 4, 5, 6, 7, 8] ∧ a = 0 ∧ z = 0 ∧ w = 0) ∨ (op = 3 ∧ a ≤ 8 ∧ z = 0) := by
  have hopcode : (4096 * op + 256 * a + 2 * z + w) / 4096 = op := by omega
  have hoperand : (4096 * op + 256 * a + 2 * z + w) % 4096 = 0 ↔ a = 0 ∧ z = 0 ∧ w = 0 := by omega
  have hindex : (4096 * op + 256 * a + 2 * z + w) / 256 % 16 = a := by omega
  have hzero : (4096 * op + 256 * a + 2 * z + w) / 2 % 128 = z := by omega
  rw [LegalWord, toNat_wordOf hop ha hz hw, hopcode, hoperand, hindex, hzero]

/-- Settles O2: the word of a command is the encoder's, so it decodes to that command; no other word is legal. -/
theorem decodingProcedure : Obligations.DecodingProcedure := by
  intro op a z w hop ha hz hw
  have herror : ¬ ((op ∈ [0, 1, 2, 4, 5, 6, 7, 8] ∧ a = 0 ∧ z = 0 ∧ w = 0) ∨ (op = 3 ∧ a ≤ 8 ∧ z = 0)) →
      ∃ e, decode (wordOf op a z w) = .error e := fun h =>
    decode_error_of_not_legalWord ((legalWord_wordOf_iff hop ha hz hw).not.2 h)
  refine ⟨?fpar, fun _ _ => herror (by omega), fun _ _ => herror (by omega), ?bare⟩
  case fpar =>
    rintro rfl ⟨ha8, rfl⟩
    exact decode_of_encode_eq (wellFormed_fpar_ofNat ha8 _) (encode_fpar_eq_wordOf a ha w hw)
  case bare =>
    rintro - ⟨rfl, rfl, rfl⟩
    refine ⟨?_, ?_, ?_, ?_, ?_, ?_, ?_, ?_, fun h => herror ?illegal⟩
    case illegal =>
      simp only [List.mem_cons, List.not_mem_nil, or_false]
      omega
    all_goals
      rintro rfl
      exact decode_of_encode_eq rfl rfl

/-- The commands a legal word can stand for: eight with no operand, and FPAR for nine registers and two parities. -/
def wellFormedCommands : List Instr :=
  [.nop, .tofr, .frfr, .wrg, .rdg, .enc, .dec, .clr]
    ++ (List.range 9).flatMap fun k => [.fpar (BitVec.ofNat 4 k) false, .fpar (BitVec.ofNat 4 k) true]

theorem fpar_mem_wellFormedCommands_iff : ∀ (a : BitVec 4) (w : Bool),
    .fpar a w ∈ wellFormedCommands ↔ (Instr.fpar a w).wellFormed = true := by
  decide

theorem mem_wellFormedCommands_iff (i : Instr) : i ∈ wellFormedCommands ↔ i.wellFormed = true := by
  cases i with
  | fpar a w => exact fpar_mem_wellFormedCommands_iff a w
  | nop => decide
  | tofr => decide
  | frfr => decide
  | wrg => decide
  | rdg => decide
  | enc => decide
  | dec => decide
  | clr => decide

theorem mem_map_encode_iff_legalWord (c : CommandWord) : c ∈ wellFormedCommands.map encode ↔ LegalWord c := by
  simp only [List.mem_map, mem_wellFormedCommands_iff]
  constructor
  · rintro ⟨i, hwf, rfl⟩
    exact legalWord_encode i hwf
  · exact exists_encode_of_legalWord

/-! ### Issuing an illegal word -/

theorem illegalWord_accepting {s : State} (h : s.Accepting) : illegalWord s = { s with status := statusOfError 4 } := by
  have herrf : s.status.errf = false := h
  exact if_neg (ne_true_of_eq_false herrf)

theorem illegalWord_latched {s : State} (h : ¬ s.Accepting) : illegalWord s = s :=
  if_pos (by simpa using h)

theorem issue_of_not_legalWord {x : Word} (h : ¬ LegalWord (commandWord x)) (s : State) :
    issue x s = .next (illegalWord s) := by
  obtain ⟨e, he⟩ := decode_error_of_not_legalWord h
  exact issue_error he s

/-- Settles O3: the legal words are those of the well-formed commands, of which there are 26. -/
theorem legalWordsExactly : Obligations.LegalWordsExactly := by
  refine ⟨decode_ok_iff_legalWord, ⟨wellFormedCommands.map encode, by decide, rfl, mem_map_encode_iff_legalWord⟩,
    fun x s hx hs => ?_⟩
  rw [issue_of_not_legalWord hx, illegalWord_accepting hs]

/-- Settles O4: each is the encoder's word of its command. -/
theorem sampleWordsDecode : Obligations.SampleWordsDecode :=
  ⟨decode_of_encode_eq rfl rfl, decode_of_encode_eq rfl rfl, decode_of_encode_eq rfl rfl, decode_of_encode_eq rfl rfl,
    decode_of_encode_eq rfl rfl, decode_of_encode_eq rfl rfl, decode_of_encode_eq rfl rfl, decode_of_encode_eq rfl rfl,
    decode_of_encode_eq rfl rfl, decode_of_encode_eq rfl rfl⟩

/-- Settles O19: such a command acts as its illegal word (notes/assumptions/11.md). -/
theorem fparWithNoRegisterIsIllegal : Obligations.FparWithNoRegisterIsIllegal := by
  intro a w s ha
  rw [exec_fpar_illegal a w s (by omega)]
  exact ⟨fun hs => congrArg _ (illegalWord_accepting hs), fun hs => congrArg _ (illegalWord_latched hs)⟩

/-- Settles O38: the step issues the word with the action taken off the pending list. -/
theorem stepOnIllegalWord : Obligations.StepOnIllegalWord := by
  intro s x rest hp hb hx
  rw [step_of_pending hp hb, hostAct_cmd, issue_of_not_legalWord hx]
  exact ⟨fun hs => congrArg _ (illegalWord_accepting hs), fun hs => congrArg _ (illegalWord_latched hs)⟩

end Sys2Proof.Machine
end

section
/-! PROOFS of the bit framer family: frames of bytes and back (40_bit_framer.md R61, R62), TOFR and FRFR (R65, R66), and
the framer's round trips (R67). -/

namespace Sys2Proof.Machine

/-! ### Frames and bytes -/

theorem toNat_packBits (b : Nat → Bool) : (packBits b).toNat = ∑ j ∈ Finset.range 8, (b j).toNat * 2 ^ (7 - j) := by
  have hbit : ∀ j, (b j).toNat ≤ 1 := fun j => (b j).toNat_le
  rw [packBits, BitVec.toNat_ofNat, Nat.mod_eq_of_lt (by
    linarith only [hbit 0, hbit 1, hbit 2, hbit 3, hbit 4, hbit 5, hbit 6, hbit 7])]
  simp [Finset.sum_range_succ]

theorem frameBit_toFrame (b : Byte) {j : Nat} (hj : j < 8) : frameBit (toFrame b) j = b.getLsbD (7 - j) :=
  frameBit_packBits _ j hj

theorem toNat_fromFrame (f : Byte) :
    (fromFrame f).toNat = ∑ j ∈ Finset.range 8, (frameBit f j).toNat * 2 ^ (7 - j) :=
  toNat_packBits (frameBit f)

theorem fromFrame_toFrame (b : Byte) : fromFrame (toFrame b) = b := by
  rw [fromFrame_eq, toFrame_eq]

theorem toFrame_fromFrame (f : Byte) : toFrame (fromFrame f) = f := by
  rw [toFrame_eq, fromFrame_eq]

/-- Settles O5: bit for bit by the frame bits of a packed byte, as a number by its value. -/
theorem frameFormat : Obligations.FrameFormat :=
  ⟨fun b _ hj => frameBit_toFrame b hj, toNat_fromFrame, by decide, by decide, by decide, by decide, by decide⟩

theorem toFrames_of_ne_nil {p : List Byte} (h : p ≠ []) : toFrames p = .ok (p.map toFrame) :=
  if_neg h

theorem fromFrames_map_toFrame (p : List Byte) : fromFrames (p.map toFrame) = p := by
  have hid : fromFrame ∘ toFrame = id := funext fromFrame_toFrame
  rw [fromFrames, List.map_map, hid, List.map_id]

/-! ### TOFR and FRFR with no error latched -/

theorem exec_tofr_accepting {s : State} (h : s.Accepting) :
    exec .tofr s = .next { s with f := toFrame s.d, status := statusAfterPrimitive s } :=
  accept_accepting applyTofr s h

theorem exec_frfr_accepting {s : State} (h : s.Accepting) :
    exec .frfr s = .next { s with d := fromFrame s.f, status := statusAfterPrimitive s } :=
  accept_accepting applyFrfr s h

theorem accepting_of_statusAfterPrimitive {s t : State} (hs : s.Accepting) (ht : t.status = statusAfterPrimitive s) :
    t.Accepting :=
  (congrArg Status.errf ht).trans hs

/-- A command other than FPAR has no operand bits (30_encoding.md R57). -/
theorem not_legalWord_of_operand {c : CommandWord} (hop : c.toNat / 4096 ≠ 3) (hbits : c.toNat % 4096 ≠ 0) :
    ¬ LegalWord c := by
  rintro (⟨-, hzero⟩ | ⟨hfpar, -⟩)
  · exact hbits hzero
  · exact hop hfpar

/-- Settles O16: F takes the frame of D, which is D's value renumbered. -/
theorem tofrFollowsRule : Obligations.TofrFollowsRule :=
  ⟨decode_of_encode_eq rfl rfl,
    fun _ hop hbits => decode_error_of_not_legalWord (not_legalWord_of_operand (by omega) hbits),
    fun s hs => ⟨_, exec_tofr_accepting hs, fun _ hj => frameBit_toFrame s.d hj, toFrame_eq s.d, rfl⟩⟩

/-- Settles O17: D takes the byte of the frame F, which is F's value. -/
theorem frfrFollowsRule : Obligations.FrfrFollowsRule :=
  ⟨decode_of_encode_eq rfl rfl,
    fun s hs => ⟨_, exec_frfr_accepting hs, toNat_fromFrame s.f, fromFrame_eq s.f, rfl⟩⟩

/-- Settles O6: the payload and the registers by the two round trips of a byte. The first command of a pair leaves no
error latched, so the second is performed. -/
theorem framerRoundTrips : Obligations.FramerRoundTrips := by
  refine ⟨fromFrame_toFrame, toFrame_fromFrame, fun p hp => ?payload, fun s hs => ?tofrFrfr, fun s hs => ?frfrTofr⟩
  case payload => exact ⟨_, toFrames_of_ne_nil hp, fromFrames_map_toFrame p⟩
  case tofrFrfr =>
    exact ⟨_, _, exec_tofr_accepting hs, exec_frfr_accepting (accepting_of_statusAfterPrimitive hs rfl),
      fromFrame_toFrame s.d⟩
  case frfrTofr =>
    exact ⟨_, _, exec_frfr_accepting hs, exec_tofr_accepting (accepting_of_statusAfterPrimitive hs rfl),
      toFrame_fromFrame s.f⟩

end Sys2Proof.Machine
end

section
/-! PROOFS of the write path family: forceParity (41_write_path.md R68, R69), writeGroup (R70), markers (R71), write (R72),
and the commands FPAR (R73) and WRG (R74). -/

namespace Sys2Proof.Machine

/-! ### forceParity, case by case

A value that has the wanted parity stays, 0 is made odd, and a nonzero value is decremented. -/

theorem parity_eq_iff (v : Byte) (w : Bool) : parity v = w ↔ v.toNat % 2 = w.toNat := by
  have hbit : ∀ b c : Bool, b = c ↔ b.toNat = c.toNat := by decide
  rw [← toNat_parity, hbit]

theorem forceParity_of_mod {v : Byte} {w : Bool} (h : v.toNat % 2 = w.toNat) : forceParity v w = v :=
  forceParity_of_parity v w ((parity_eq_iff v w).2 h)

theorem forceParity_of_parity_ne {v : Byte} {w : Bool} (h : parity v ≠ w) (hv : v ≠ 0) : forceParity v w = v - 1 := by
  cases w with
  | false => simp [forceParity, h]
  | true => rw [forceParity, if_neg (by decide), if_pos (by simpa using h), if_neg hv]

/-- The decrement never borrows out of the byte: it is applied to nonzero values only (R69 (a)). -/
theorem toNat_forceParity_of_mod_ne {v : Byte} {w : Bool} (h : v.toNat % 2 ≠ w.toNat) (hv : v ≠ 0) :
    (forceParity v w).toNat + 1 = v.toNat := by
  rw [forceParity_of_parity_ne ((parity_eq_iff v w).not.2 h) hv]
  bv_omega

theorem mod_two_forceParity (v : Byte) (w : Bool) : (forceParity v w).toNat % 2 = w.toNat :=
  (parity_eq_iff _ w).1 (parity_forceParity v w)

theorem forceParity_idem (v : Byte) (w : Bool) : forceParity (forceParity v w) w = forceParity v w :=
  forceParity_of_parity _ w (parity_forceParity v w)

theorem forceParity_eq_self_iff (v : Byte) (w : Bool) : forceParity v w = v ↔ v.toNat % 2 = w.toNat :=
  ⟨fun h => h ▸ mod_two_forceParity v w, forceParity_of_mod⟩

theorem forceParity_cases (v : Byte) (w : Bool) :
    forceParity v w = v ∨ (v = 0 ∧ w = true ∧ forceParity v w = 1) ∨ (forceParity v w).toNat + 1 = v.toNat := by
  by_cases hv : v = 0
  · subst hv
    cases w with
    | false => exact .inl rfl
    | true => exact .inr (.inl ⟨rfl, rfl, rfl⟩)
  · by_cases h : v.toNat % 2 = w.toNat
    · exact .inl (forceParity_of_mod h)
    · exact .inr (.inr (toNat_forceParity_of_mod_ne h hv))

/-- A value moves by at most 1, and only 0 moves up (R69 (c), (g)). -/
theorem forceParity_dist (v : Byte) (w : Bool) :
    (forceParity v w).toNat ≤ v.toNat + 1 ∧ v.toNat ≤ (forceParity v w).toNat + 1
    ∧ (v.toNat < (forceParity v w).toNat → v = 0) := by
  rcases forceParity_cases v w with h | ⟨rfl, -, h⟩ | h
  · simp [h]
  · rw [h]
    decide
  · omega

/-- Settles O7: each branch of the rule is one of the cases above. -/
theorem forceParityCases : Obligations.ForceParityCases := by
  refine ⟨fun v => ⟨fun hodd => ?makeEven, fun heven => forceParity_of_mod heven, fun _ h0 => ?zero,
    fun heven h0 => ?makeOdd, fun hodd => forceParity_of_mod hodd⟩, rfl, rfl, rfl⟩
  case makeEven =>
    exact Nat.eq_sub_of_add_eq (toNat_forceParity_of_mod_ne (by simp [hodd]) (by rintro rfl; simp at hodd))
  case zero =>
    obtain rfl : v = 0 := BitVec.eq_of_toNat_eq h0
    rfl
  case makeOdd =>
    exact Nat.eq_sub_of_add_eq (toNat_forceParity_of_mod_ne (by simp [heven]) (by rintro rfl; exact h0 rfl))

/-- Settles O8: distance and bounds by the cases of forceParity, the bit laws by the rule's branches. -/
theorem forceParityLaws : Obligations.ForceParityLaws := by
  obtain ⟨hcases, -⟩ := forceParityCases
  refine ⟨fun v w => ?_, by decide, by decide⟩
  obtain ⟨hmakeEven, -, -, hmakeOdd, -⟩ := hcases v
  obtain ⟨habove, hbelow, hincr⟩ := forceParity_dist v w
  refine ⟨Nat.le_of_lt_succ (forceParity v w).isLt, mod_two_forceParity v w, habove, hbelow,
    forceParity_eq_self_iff v w, fun hne hv => ?decrement, rfl, forceParity_idem v w, hincr,
    fun hodd => ?clearBit, fun heven htwo => ?borrow⟩
  case decrement =>
    rcases forceParity_cases v w with h | ⟨h0, hw, -⟩ | h
    · exact absurd ((forceParity_eq_self_iff v w).1 h) hne
    · exact absurd ⟨h0, hw⟩ hv
    · exact h
  case clearBit => rw [hmakeEven hodd]; omega
  case borrow => rw [hmakeOdd heven (by omega)]; omega

/-! ### writeGroup -/

theorem slotBit_of_lt (f : Byte) (m : Bool) {k : Fin 9} (hk : k.val < 8) : slotBit f m k = frameBit f k.val :=
  if_pos hk

theorem writeGroup_getElem (g : GroupRegs) (f : Byte) (m : Bool) {k : Nat} (hk : k < 9) :
    (writeGroup g f m)[k] = forceParity g[k] (slotBit f m ⟨k, hk⟩) :=
  writeGroup_slot g f m ⟨k, hk⟩

theorem writeGroup_frame_slot (g : GroupRegs) (f : Byte) (m : Bool) {k : Fin 9} (hk : k.val < 8) :
    (writeGroup g f m)[k] = forceParity g[k] (frameBit f k.val) := by
  rw [Fin.getElem_fin, writeGroup_slot, slotBit_of_lt f m hk]

theorem writeGroup_marker_slot (g : GroupRegs) (f : Byte) (m : Bool) :
    (writeGroup g f m)[8] = forceParity g[8] m :=
  writeGroup_slot g f m 8

/-- The group a second write finds has the parities it asks for (R69 (f)). -/
theorem writeGroup_idem (g : GroupRegs) (f : Byte) (m : Bool) : writeGroup (writeGroup g f m) f m = writeGroup g f m := by
  apply Vector.ext
  intro k hk
  rw [writeGroup_getElem, writeGroup_getElem, forceParity_idem]

/-- Settles O9: slot by slot, and the parity of a forced value. -/
theorem writeGroupSlots : Obligations.WriteGroupSlots := by
  intro g f m
  refine ⟨fun k hk => writeGroup_frame_slot g f m hk, writeGroup_marker_slot g f m, fun k hk => ?frame, ?marker⟩
  case frame => rw [writeGroup_frame_slot g f m hk, mod_two_forceParity]
  case marker => rw [writeGroup_marker_slot, mod_two_forceParity]

/-! ### markers and write -/

theorem markers_getElem? {l i : Nat} (h : i < l) : (markers l)[i]? = some (decide (i = l - 1)) := by
  have hi : i < (markers l).length := by rwa [markers_length]
  have hval := markers_getD l i h
  rw [List.getD_eq_getElem _ _ hi] at hval
  rw [List.getElem?_eq_getElem hi, hval]
  exact congrArg some (decide_eq_decide.2 (by omega))

theorem encodeImage_nil (im : Image) : encodeImage im [] = .error .emptyPayload := rfl

/-- Settles O11: the marker of every index, and the empty payload that fails before markers are asked for. -/
theorem markersStopLast : Obligations.MarkersStopLast :=
  ⟨fun l _ => ⟨markers_length l, fun _ => markers_getElem?⟩, rfl, encodeImage_nil⟩

theorem write_of_lt {im : Image} {fs : List Byte} (ms : List Bool) (h : im.npix / 3 < fs.length) :
    write im fs ms = .error .carrierTooSmall :=
  if_pos h

theorem write_of_le {im : Image} {fs : List Byte} (ms : List Bool) (h : fs.length ≤ im.npix / 3) :
    write im fs ms = .ok (writeGroups 0 fs ms im) :=
  if_neg (Nat.not_lt.2 h)

theorem group_eq_writeGroup {im im' : Image} {i : Nat} {f : Byte} {m : Bool} (hnch : im'.nch = im.nch)
    (h : ∀ k : Fin 9, im'.cells.getD (slotOffset im.nch (3 * i) k.val) 0
      = forceParity (im.cells.getD (slotOffset im.nch (3 * i) k.val) 0) (slotBit f m k)) :
    im'.group i = writeGroup (im.group i) f m := by
  apply Vector.ext
  intro k hk
  have hnew := group_slot im' i ⟨k, hk⟩
  have hold := group_slot im i ⟨k, hk⟩
  rw [hnew, writeGroup_getElem, hold, hnch, h]

/-- Settles O14: by the closed form of the group loop. -/
theorem writeFollowsRule : Obligations.WriteFollowsRule := by
  intro im fs hok _
  refine ⟨write_of_lt _, fun hfit => ?_⟩
  obtain ⟨hlen, hthree⟩ : im.cells.length = im.npix * im.nch ∧ 3 ≤ im.nch := by simpa [Image.ok] using hok
  obtain ⟨hnpix, hnch, hcells, hslots, hframe⟩ :=
    writeGroups_closed fs (markers fs.length) im 0 (markers_length _) hthree hlen (by omega)
  simp only [Nat.zero_add] at hslots hframe
  exact ⟨_, write_of_le _ hfit, hnpix, hnch, hcells, fun i hi => group_eq_writeGroup hnch (hslots i hi),
    fun o ho => hframe o fun i hi k => ho i k hi k.isLt⟩

/-! ### FPAR and WRG with no error latched -/

theorem exec_fpar_accepting {a : BitVec 4} (ha : a.toNat ≤ 8) (w : Bool) {s : State} (h : s.Accepting) :
    exec (.fpar a w) s
      = .next { s with g := s.g.set a.toNat (forceParity s.g[a.toNat] w), status := statusAfterPrimitive s } :=
  (exec_fpar_legal a w s ha).trans (accept_accepting _ s h)

theorem exec_wrg_accepting {s : State} (h : s.Accepting) :
    exec .wrg s = .next { s with g := writeGroup s.g s.f s.marker, status := statusAfterPrimitive s } :=
  accept_accepting applyWrg s h

/-- WRG finds nothing to do where the parities are already forced and DONE is clear. -/
theorem exec_wrg_fixed {t : State} (h : t.Accepting) (hg : writeGroup t.g t.f t.marker = t.g)
    (hst : statusAfterPrimitive t = t.status) : exec .wrg t = .next t := by
  rw [exec_wrg_accepting h, hg, hst]

theorem not_legalWord_fpar {a z w : Nat} (ha : a < 16) (hz : z < 128) (hw : w < 2) (h : 9 ≤ a ∨ z ≠ 0) :
    ¬ LegalWord (wordOf 3 a z w) := by
  rw [legalWord_wordOf_iff (by decide) ha hz hw]
  rintro (⟨hop, -⟩ | ⟨-, ha8, hz0⟩)
  · exact absurd hop (by decide)
  · omega

/-- Settles O18: the word by the encoder, the illegal words by their fields, and the one register FPAR writes. -/
theorem fparFollowsRule : Obligations.FparFollowsRule := by
  refine ⟨fun a w ha hw => ?legal, fun a z w x s ha hz hw hbad hx hs => ?illegal, fun a w s ha hs =>
    ⟨_, exec_fpar_accepting ha w hs, Vector.getElem_set_self _,
      fun k hk => Vector.getElem_set_ne (by omega) k.isLt hk.symm, rfl⟩⟩
  case legal =>
    have hword : BitVec.ofNat 16 (0x3000 + 0x100 * a + w) = wordOf 3 a 0 w := rfl
    rw [hword]
    exact decode_of_encode_eq (wellFormed_fpar_ofNat ha _) (encode_fpar_eq_wordOf a (by omega) w (by omega))
  case illegal =>
    rw [issue_of_not_legalWord (hx ▸ not_legalWord_fpar ha hz hw hbad), illegalWord_accepting hs]

theorem marker_eq_decide (s : State) : s.marker = decide (s.m = 1) := by
  have h : ∀ m : BitVec 1, m.getLsbD 0 = decide (m = 1) := by decide
  exact h s.m

theorem toNat_marker (s : State) : s.marker.toNat = s.m.toNat := by
  have h : ∀ m : BitVec 1, (m.getLsbD 0).toNat = m.toNat := by decide
  exact h s.m

/-- Settles O20: WRG is writeGroup of the registers; a second one finds the parities already forced and DONE clear. -/
theorem wrgFollowsRule : Obligations.WrgFollowsRule := by
  refine ⟨decode_of_encode_eq rfl rfl, fun s hs => ?_⟩
  obtain ⟨hframe, hmarker, hframeParity, hmarkerParity⟩ := writeGroupSlots s.g s.f s.marker
  rw [toNat_marker] at hmarkerParity
  exact ⟨_, exec_wrg_accepting hs, hframe, marker_eq_decide s ▸ hmarker, hframeParity, hmarkerParity, rfl,
    exec_wrg_fixed (accepting_of_statusAfterPrimitive hs rfl) (writeGroup_idem s.g s.f s.marker) rfl⟩

end Sys2Proof.Machine
end

section
/-! PROOFS of the read path family: readGroup (42_read_path.md R76), read (R77), the command RDG (R78), and what DEC does not
read (R79, 70_reset_and_hazards.md R109, R110). -/

namespace Sys2Proof.Machine

/-! ### readGroup -/

theorem readGroup_marker (g : GroupRegs) : (readGroup g).2 = parity g[8] := rfl

theorem readGroup_marker_eq_true_iff (g : GroupRegs) : (readGroup g).2 = true ↔ g[8].toNat % 2 = 1 :=
  parity_iff g[8]

theorem readGroup_marker_eq_false_iff (g : GroupRegs) : (readGroup g).2 = false ↔ g[8].toNat % 2 = 0 :=
  parity_eq_iff g[8] false

theorem toNat_frameBit_readGroup (g : GroupRegs) {k : Fin 9} (hk : k.val < 8) :
    (frameBit (readGroup g).1 k.val).toNat = g[k].toNat % 2 := by
  rw [readGroup_frameBit g k.val hk, toNat_parity, Fin.getElem_fin]

theorem toNat_readGroup_marker (g : GroupRegs) : (readGroup g).2.toNat = g[8].toNat % 2 := by
  rw [readGroup_marker, toNat_parity]

/-- Every slot of a written group has the parity of the bit written to it. -/
theorem readGroup_writeGroup (g : GroupRegs) (f : Byte) (m : Bool) : readGroup (writeGroup g f m) = (f, m) :=
  readGroup_frame_of_slots _ f m fun k => by rw [Fin.getElem_fin, writeGroup_slot, parity_forceParity]

/-- Settles O10: the nine parities slot by slot, and the slots of a written group. -/
theorem readGroupParities : Obligations.ReadGroupParities :=
  ⟨fun g => ⟨fun _ hk => toNat_frameBit_readGroup g hk, toNat_readGroup_marker g⟩, readGroup_writeGroup⟩

/-! ### read -/

/-- The group the loop stops at is the first whose marker is 1. -/
theorem read_of_first_stop {im : Image} {n : Nat} (hn : n < im.npix / 3) (hstop : (readGroup (im.group n)).2 = true)
    (hfirst : ∀ j, j < n → (readGroup (im.group j)).2 = false) :
    read im = .ok ((List.range (n + 1)).map fun i => fromFrame (readGroup (im.group i)).1) := by
  rcases readGroups_stops (im.npix / 3) 0 im with ⟨e, -, -, hbefore, he, hread⟩ | ⟨hnone, -⟩
  · have hen : ¬ e < n := fun h => Bool.false_ne_true ((hfirst e h).symm.trans he)
    have hne : ¬ n < e := fun h => Bool.false_ne_true ((hbefore n n.zero_le h).symm.trans hstop)
    obtain rfl : e = n := by omega
    rw [read, hread, List.range_eq_range', Nat.sub_zero]
  · exact absurd ((hnone n n.zero_le (by omega)).symm.trans hstop) Bool.false_ne_true

theorem read_of_no_stop {im : Image} (hnone : ∀ j, j < im.npix / 3 → (readGroup (im.group j)).2 = false) :
    read im = .error .unterminatedMessage := by
  rcases readGroups_stops (im.npix / 3) 0 im with ⟨e, -, hlt, -, he, -⟩ | ⟨-, hread⟩
  · exact absurd ((hnone e (by omega)).symm.trans he) Bool.false_ne_true
  · exact hread

/-- Settles O13: an odd slot 8 is the marker 1, and group `n` is one of the image's where three pixels are left for it. -/
theorem readStopsAtFirstOdd : Obligations.ReadStopsAtFirstOdd := by
  refine fun im => ⟨fun n hn hodd heven => ?stops, fun heven => ?fails⟩
  case stops =>
    exact read_of_first_stop (by omega) ((readGroup_marker_eq_true_iff _).2 hodd)
      fun j hj => (readGroup_marker_eq_false_iff _).2 (heven j hj)
  case fails => exact read_of_no_stop fun j hj => (readGroup_marker_eq_false_iff _).2 (heven j (by omega))

/-! ### RDG with no error latched -/

theorem exec_rdg_accepting {s : State} (h : s.Accepting) :
    exec .rdg s
      = .next { s with f := (readGroup s.g).1, m := markerReg (readGroup s.g).2, status := statusAfterPrimitive s } :=
  accept_accepting applyRdg s h

theorem toNat_markerReg (b : Bool) : (markerReg b).toNat = b.toNat :=
  BitVec.toNat_ofBool b

/-- Settles O21: RDG is readGroup of the registers, its marker as the register M holds it. -/
theorem rdgFollowsRule : Obligations.RdgFollowsRule := by
  refine ⟨decode_of_encode_eq rfl rfl, fun s hs =>
    ⟨_, exec_rdg_accepting hs, fun k hk => readGroup_frameBit s.g k.val hk, ?marker, rfl⟩⟩
  case marker => exact (toNat_markerReg _).trans (toNat_readGroup_marker s.g)

/-! ### What DEC does not read -/

/-- Groups `0..n` of CAR hold the same slot values in the two states, wherever NCH puts them. -/
def SameSlotsUpTo (n : Nat) (s s' : State) : Prop :=
  ∀ i k, i ≤ n → k < 9 → memRead .car (slotAt s' i k) s' = memRead .car (slotAt s i k) s

namespace SameSlotsUpTo
variable {s s' : State} {n i : Nat} (E : SameSlotsUpTo n s s') (hi : i ≤ n)
include E hi

theorem carrierGroup : carrierGroup s' i = Machine.carrierGroup s i := by
  unfold Machine.carrierGroup
  exact congrArg Vector.ofFn (funext fun k => E i k hi k.isLt)

theorem stopsAt : stopsAt s' i = Machine.stopsAt s i := by
  unfold Machine.stopsAt
  rw [E.carrierGroup hi]

/-- Where both images have the groups `0..n`, these stop DEC in both or in neither. -/
theorem stopGroup_iff (hn : 3 * n + 3 ≤ s.npix.toNat) (hn' : 3 * n + 3 ≤ s'.npix.toNat) :
    StopGroup s' i ↔ StopGroup s i := by
  have hin : i < s.npix.toNat / 3 := by omega
  have hin' : i < s'.npix.toNat / 3 := by omega
  rw [Machine.stopGroup_iff, Machine.stopGroup_iff, E.stopsAt hi]
  simp only [hin, hin', true_and]

end SameSlotsUpTo

/-- Settles O52: the two scans stop at the same group, and each byte is the frame of a group both images hold. -/
theorem decIgnoresWhatItDoesNotRead : Obligations.DecIgnoresWhatItDoesNotRead := by
  intro s s' n hp hp' ha ha' hc hc' hstop hfirst hn' hslots
  have E : SameSlotsUpTo n s s' := hslots
  have hiff : ∀ i, i ≤ n → (StopGroup s' i ↔ StopGroup s i) := fun i hi => E.stopGroup_iff hi hstop.1 hn'
  obtain ⟨t, ht, -, hmlen, hst, hbyte⟩ := exec_dec_stop s n hp ha hc hstop hfirst
  obtain ⟨t', ht', -, hmlen', hst', hbyte'⟩ := exec_dec_stop s' n hp' ha' hc' ((hiff n le_rfl).2 hstop)
    fun j hj => (hiff j hj.le).not.2 (hfirst j hj)
  refine ⟨t, t', ht, ht', congrArg Status.done hst', congrArg Status.done hst,
    BitVec.eq_of_toNat_eq (hmlen'.trans hmlen.symm), fun i hi => ?byte⟩
  case byte => rw [hbyte' i hi, hbyte i hi, E.carrierGroup hi]

end Sys2Proof.Machine
end

section
/-! PROOFS of the orchestration family, 1: the contract function encode in closed form (43_orchestration.md R80). -/

namespace Sys2Proof.Machine

/-- The framer renumbers bits, so a payload's frames are its bytes (40_bit_framer.md R65). -/
theorem map_toFrame (p : List Byte) : p.map toFrame = p := by
  have hid : toFrame = id := funext toFrame_eq
  rw [hid, List.map_id]

theorem encodeImage_of_lt {im : Image} {p : List Byte} (hp : p ≠ []) (h : im.npix < 3 * p.length) :
    encodeImage im p = .error .carrierTooSmall := by
  rw [encodeImage, toFrames_of_ne_nil hp]
  exact if_pos h

theorem encodeImage_of_le {im : Image} {p : List Byte} (hp : p ≠ []) (h : 3 * p.length ≤ im.npix) :
    encodeImage im p = .ok (writeGroups 0 p (markers p.length) im) := by
  rw [encodeImage, toFrames_of_ne_nil hp, map_toFrame]
  exact (if_neg (Nat.not_lt.2 h)).trans (write_of_le _ (by omega))

/-- `im'` is `im` with the payload `p` written over its first groups: every value of the image is said. -/
structure Encoded (im : Image) (p : List Byte) (im' : Image) : Prop where
  npix : im'.npix = im.npix
  nch : im'.nch = im.nch
  length : im'.cells.length = im.cells.length
  slot : ∀ i, i < p.length → ∀ k : Fin 9, im'.cells.getD (slotOffset im.nch (3 * i) k.val) 0
    = forceParity (im.cells.getD (slotOffset im.nch (3 * i) k.val) 0)
        (slotBit (p.getD i 0) (decide (i + 1 = p.length)) k)
  other : ∀ o, (∀ i, i < p.length → ∀ k : Fin 9, o ≠ slotOffset im.nch (3 * i) k.val) →
    im'.cells.getD o 0 = im.cells.getD o 0

/-- A non-empty payload with enough groups encodes, by the closed form of write's group loop. -/
theorem encodeImage_encoded {im : Image} {p : List Byte} (hok : im.ok = true) (hp : p ≠ [])
    (hfit : 3 * p.length ≤ im.npix) : ∃ im', encodeImage im p = .ok im' ∧ Encoded im p im' := by
  obtain ⟨hlen, hthree⟩ : im.cells.length = im.npix * im.nch ∧ 3 ≤ im.nch := by simpa [Image.ok] using hok
  obtain ⟨hnpix, hnch, hcells, hslot, hother⟩ :=
    writeGroups_closed p (markers p.length) im 0 (markers_length _) hthree hlen (by omega)
  simp only [Nat.zero_add] at hslot hother
  refine ⟨_, encodeImage_of_le hp hfit, hnpix, hnch, hcells, fun i hi k => ?slot, hother⟩
  case slot => rw [hslot i hi k, markers_getD _ _ hi]

/-- Settles O12: the failures are the function's two tests, the result is its closed form. -/
theorem encodeImageClosedForm : Obligations.EncodeImageClosedForm := by
  intro im p hok
  refine ⟨fun h => h ▸ encodeImage_nil im, encodeImage_of_lt, fun hp hfit => ?result⟩
  case result =>
    obtain ⟨im', hencode, E⟩ := encodeImage_encoded hok hp hfit
    refine ⟨im', hencode, E.npix, E.nch, E.length, fun i k hi hk => ?frame, fun i hi => ?marker,
      fun o ho => E.other o fun i hi k => ho i k hi k.isLt⟩
    case frame => rw [E.slot i hi ⟨k, by omega⟩, slotBit_of_lt _ _ hk, toFrame_eq]
    case marker =>
      have hlast : decide (i = p.length - 1) = decide (i + 1 = p.length) := decide_eq_decide.2 (by omega)
      rw [hlast]
      exact E.slot i hi 8

/-- The closed form fixes the image: a value is that of a written slot or the carrier's. -/
theorem Encoded.unique {im a b : Image} {p : List Byte} (A : Encoded im p a) (B : Encoded im p b) : a = b := by
  have hcells : a.cells = b.cells := by
    refine list_ext_getD (A.length.trans B.length.symm) fun o _ => ?_
    by_cases hslot : ∃ i, i < p.length ∧ ∃ k : Fin 9, o = slotOffset im.nch (3 * i) k.val
    · obtain ⟨i, hi, k, rfl⟩ := hslot
      rw [A.slot i hi k, B.slot i hi k]
    · have hother : ∀ i, i < p.length → ∀ k : Fin 9, o ≠ slotOffset im.nch (3 * i) k.val :=
        fun i hi k e => hslot ⟨i, hi, k, e⟩
      rw [A.other o hother, B.other o hother]
  obtain ⟨npix, nch, cells⟩ := a
  obtain ⟨npix', nch', cells'⟩ := b
  exact (Image.mk.injEq ..).mpr ⟨A.npix.trans B.npix.symm, A.nch.trans B.nch.symm, hcells⟩

/-- A written group reads back as its byte and its marker (42_read_path.md R76). -/
theorem Encoded.readGroup {im im' : Image} {p : List Byte} (E : Encoded im p im') {i : Nat} (hi : i < p.length) :
    readGroup (im'.group i) = (p.getD i 0, decide (i + 1 = p.length)) := by
  rw [group_eq_writeGroup E.nch (E.slot i hi), readGroup_writeGroup]

/-- decode undoes encode: the last byte's group is the first with an odd slot 8 (43_orchestration.md R84). -/
theorem Encoded.decodeImage {im im' : Image} {p : List Byte} (E : Encoded im p im') (hp : p ≠ [])
    (hfit : 3 * p.length ≤ im.npix) : decodeImage im' = .ok p := by
  have hpos : 0 < p.length := List.length_pos_iff.2 hp
  have hmarker : ∀ i, i < p.length → (Machine.readGroup (im'.group i)).2 = decide (i + 1 = p.length) :=
    fun i hi => congrArg Prod.snd (E.readGroup hi)
  have hread := read_of_first_stop (im := im') (n := p.length - 1) (by rw [E.npix]; omega)
    ((hmarker _ (by omega)).trans (decide_eq_true (by omega)))
    fun j hj => (hmarker j (by omega)).trans (decide_eq_false (by omega))
  rw [Machine.decodeImage, hread, Nat.sub_add_cancel hpos]
  refine congrArg Except.ok (List.ext_getElem (by simp) fun i hi hi' => ?_)
  rw [List.getElem_map, List.getElem_range, E.readGroup hi', fromFrame_eq]
  exact List.getD_eq_getElem _ _ hi'

end Sys2Proof.Machine
end

section
/-! PROOFS of the orchestration family, 2: ENC, its errors (43_orchestration.md R82, 60_exceptions.md R95), its big-step
form (R85) and the state it ends in. -/

namespace Sys2Proof.Machine

/-! ### Errors -/

/-- A check of ENC that fails raises its error, and STATUS alone changes (60_exceptions.md R94). -/
theorem exec_enc_error {s : State} {k : ErrorKind} (ha : s.Accepting) (he : encError s = some k) :
    exec .enc s = .next { s with status := statusOfError k.code } := by
  refine (accept_accepting encBody s ha).trans ?_
  rw [runCommand, encBody, encError_beginCommand, he]
  rfl

theorem encError_of_mlen_zero {s : State} (h : s.mlen.toNat = 0) : encError s = some .emptyPayload :=
  if_pos h

theorem encError_of_badConfig {s : State} (h : s.mlen.toNat ≠ 0)
    (hbad : ¬ (s.ConfigLegal ∧ s.mlen.toNat ≤ s.params.msgBytes)) : encError s = some .badConfig := by
  rw [encError, if_neg h, if_pos]
  rw [configLegal_false_iff, ← Nat.not_le]
  exact not_and_or.1 hbad

theorem encError_of_small {s : State} (h : s.mlen.toNat ≠ 0) (hc : s.ConfigLegal)
    (hm : s.mlen.toNat ≤ s.params.msgBytes) (hsmall : s.npix.toNat < 3 * s.mlen.toNat) :
    encError s = some .carrierTooSmall := by
  rw [encError, if_neg h, if_neg, if_pos hsmall]
  rw [configLegal_false_iff]
  exact not_or.2 ⟨not_not.2 hc, Nat.not_lt.2 hm⟩

/-- Settles O26: the first check that fails decides. -/
theorem encErrors : Obligations.EncErrors := fun _ ha =>
  ⟨fun h => exec_enc_error ha (encError_of_mlen_zero h),
    fun h hbad => exec_enc_error ha (encError_of_badConfig h hbad),
    fun h hc hm hsmall => exec_enc_error ha (encError_of_small h hc hm hsmall)⟩

/-! ### ENC is encode applied to the memories -/

theorem imageOf_ok (sp : Space) {s : State} (hc : s.ConfigLegal) : (imageOf sp s).ok = true := by
  simp [Image.ok, imageOf, imageCells, hc.1]

theorem payloadOf_length (s : State) : (payloadOf s).length = s.mlen.toNat := by simp [payloadOf]

theorem payloadOf_getD (s : State) {i : Nat} (hi : i < s.mlen.toNat) : (payloadOf s).getD i 0 = memRead .msg i s := by
  rw [List.getD_eq_getElem _ _ (by rwa [payloadOf_length])]
  simp [payloadOf]

theorem payloadOf_ne_nil {s : State} (h : 1 ≤ s.mlen.toNat) : payloadOf s ≠ [] :=
  List.ne_nil_of_length_pos ((payloadOf_length s).symm ▸ h)

/-- The image in OUT is the image in CAR with the payload in MSG written over it. -/
theorem EncDone.encoded {s t : State} (D : EncDone s t) (h : s.EncReady) :
    Encoded (imageOf .car s) (payloadOf s) (imageOf .out t) := by
  have hcells : imageCells t = imageCells s := by rw [imageCells, imageCells, D.npix, D.nch]
  refine ⟨congrArg BitVec.toNat D.npix, congrArg BitVec.toNat D.nch, ?length, ?slot, ?other⟩
  case length => rw [imageOf_length, imageOf_length, hcells]
  case slot =>
    intro i hi k
    rw [payloadOf_length] at hi ⊢
    have hin : slotAt s i k < imageCells s := slotAt_lt_imageCells s h i k hi k.isLt
    have hslot := D.slot i hi k
    rw [payloadBit, toFrame_eq] at hslot
    rw [payloadOf_getD s hi]
    refine (imageOf_getD .out t _ (hcells.symm ▸ hin)).trans (hslot.trans ?_)
    rw [← imageOf_getD .car s _ hin]
    rfl
  case other =>
    intro o ho
    rw [payloadOf_length] at ho
    by_cases hin : o < imageCells s
    · rw [imageOf_getD .out t o (hcells.symm ▸ hin), imageOf_getD .car s o hin, D.other o ho, if_pos hin]
    · have hout : (imageOf .out t).cells.length ≤ o := by rw [imageOf_length]; omega
      have hcar : (imageOf .car s).cells.length ≤ o := by rw [imageOf_length]; omega
      rw [List.getD_eq_default _ _ hout, List.getD_eq_default _ _ hcar]

theorem EncDone.encodeImage {s t : State} (D : EncDone s t) (h : s.EncReady) :
    encodeImage (imageOf .car s) (payloadOf s) = .ok (imageOf .out t) := by
  have E := D.encoded h
  obtain ⟨-, hc, hm, -, hfit⟩ := h
  obtain ⟨im', hencode, E'⟩ := encodeImage_encoded (imageOf_ok .car hc) (payloadOf_ne_nil hm)
    (by rw [payloadOf_length]; exact hfit)
  rw [hencode, E'.unique E]

/-- Settles O24: slot by slot from what ENC leaves, as an image by the closed form of encode. -/
theorem encBigStep : Obligations.EncBigStep := by
  intro s h
  obtain ⟨t, ht, D⟩ := exec_enc_done s h
  have hthree : 3 ≤ s.nch.toNat := h.2.1.1
  refine ⟨t, ht, fun i k hi hk => ?slot, fun o ho hother => ?other, fun i j k l _ _ hk hl => ?distinct,
    D.encodeImage h⟩
  case slot => exact payloadBit_eq_encBit s i ⟨k, by omega⟩ hi ▸ D.slot i hi ⟨k, by omega⟩
  case other => exact (D.other o fun i hi k e => hother ⟨i, k, hi, k.isLt, e⟩).trans (if_pos ho)
  case distinct => exact slotOffset_inj hthree (by omega) (by omega)

/-- Settles O25: the registers are those of the last group's pass. -/
theorem encStateAfter : Obligations.EncStateAfter := by
  intro s h
  obtain ⟨t, ht, D⟩ := exec_enc_done s h
  obtain ⟨-, -, hm, -⟩ := h
  exact ⟨t, ht, D.pxc, BitVec.eq_of_toNat_eq D.gix, D.d, D.f.trans D.d.symm, D.m,
    fun k => (D.g k).trans (D.slot _ (by omega) k).symm, D.status, D.npix, D.nch, D.mlen, D.own,
    memRead_of_car D.car D.own.1, memRead_of_msg D.msg D.own.1, exec_enc_out_beyond ht⟩

end Sys2Proof.Machine
end

section
/-! PROOFS of the orchestration family, 3: DEC, its error, its big-step form (43_orchestration.md R86) and the states it
ends in (R83). -/

namespace Sys2Proof.Machine

/-- Settles O31: the one check fails, and MLEN is not yet written (notes/assumptions/14.md). -/
theorem decBadConfig : Obligations.DecBadConfig := by
  intro s ha hbad
  have he : decError s = some .badConfig := if_pos ((configLegal_false_iff s).2 hbad)
  refine (accept_accepting decBody s ha).trans ?_
  rw [runCommand, decBody, decError_beginCommand, he]
  rfl

/-! ### The scan, from the state DEC found -/

/-- What DEC writes before its scan, the scan neither reads nor keeps: STATUS, MLEN and the two counters. -/
theorem DecPasses.of_decStart {s t : State} {e : Nat} (P : DecPasses (decStart (beginCommand s)) t 0 e) :
    DecPasses s t 0 e :=
  { P with }

theorem DecPasses.frame {s t : State} {e : Nat} (P : DecPasses s t 0 e) :
    t.npix = s.npix ∧ t.nch = s.nch ∧ SameOwn s t ∧ SameBytesIn .car s t ∧ SameBytesIn .out s t :=
  ⟨P.npix, P.nch, ⟨P.params, P.pending, P.reply, P.draws⟩, memRead_of_car P.car P.params, memRead_of_out P.out P.params⟩

theorem DecPasses.msg_beyond {s t : State} {e o : Nat} (P : DecPasses s t 0 e) (ho : e ≤ o) :
    memRead .msg o t = memRead .msg o s :=
  P.other o (by omega)

/-- After `n + 1` groups the working registers hold group `n`, its byte twice, and its marker. -/
theorem DecPasses.last_group {s t : State} {n : Nat} (P : DecPasses s t 0 (n + 1)) :
    (∀ k : Fin 9, t.g[k] = memRead .car (slotAt s n k.val) s) ∧ t.d = (readGroup (carrierGroup s n)).1 ∧ t.f = t.d
      ∧ t.m = markerReg (stopsAt s n) := by
  obtain ⟨hg, hf, hd, hm⟩ := P.working n.succ_pos
  refine ⟨fun k => ?_, hd, hf.trans hd.symm, hm⟩
  rw [hg]
  exact carrierGroup_slot s n k

/-- DEC on a legal image with a first stopping group: what its scan left. This asks nothing of the parameters, as R84
does not; that every byte has a cell of MSG is `exec_dec_stop`. -/
theorem exec_dec_first_stop {s : State} {n : Nat} (ha : s.Accepting) (hc : s.ConfigLegal) (hstop : StopGroup s n)
    (hfirst : ∀ j, j < n → ¬ StopGroup s j) :
    ∃ t, exec .dec s = .next t ∧ DecPasses s t 0 (n + 1) ∧ t.mlen.toNat = n + 1 ∧ t.status.done = true := by
  refine ⟨_, exec_dec_legal s ha hc, ?_⟩
  obtain ⟨hn, hs⟩ := (stopGroup_iff s n).1 hstop
  rcases decRun_passes (beginCommand s) with ⟨e, he, hbefore, hstops, P, hmlen, hst⟩ | ⟨hnone, -⟩
  · have hen : ¬ e < n := fun h => hfirst e h ((stopGroup_iff s e).2 ⟨he, hstops⟩)
    have hne : ¬ n < e := fun h => Bool.false_ne_true ((hbefore n h).symm.trans hs)
    obtain rfl : e = n := by omega
    exact ⟨P.endCommand.of_decStart, hmlen, congrArg Status.done hst⟩
  · exact absurd ((hnone n hn).symm.trans hs) Bool.false_ne_true

/-! ### DEC is decode applied to the memories -/

theorem readGroup_imageOf_marker {s : State} (hc : s.ConfigLegal) {i : Nat} (hi : i < s.npix.toNat / 3) :
    (readGroup ((imageOf .car s).group i)).2 = stopsAt s i := by
  rw [imageOf_group s i hc.1 (by omega), stopsAt]

theorem stopsAt_eq_false {s : State} {i : Nat} (hi : i < s.npix.toNat / 3) (h : ¬ StopGroup s i) :
    stopsAt s i = false := by
  rw [stopGroup_iff] at h
  simpa [hi] using h

theorem decodeImage_of_stop {s : State} {n : Nat} (hc : s.ConfigLegal) (hstop : StopGroup s n)
    (hfirst : ∀ j, j < n → ¬ StopGroup s j) :
    decodeImage (imageOf .car s) = .ok ((List.range (n + 1)).map fun i => (readGroup (carrierGroup s i)).1) := by
  obtain ⟨hn, hs⟩ := (stopGroup_iff s n).1 hstop
  refine (read_of_first_stop hn ((readGroup_imageOf_marker hc hn).trans hs) fun j hj => ?before).trans
    (congrArg Except.ok (List.map_congr_left fun i hi => ?byte))
  case before => rw [readGroup_imageOf_marker hc (hj.trans hn), stopsAt_eq_false (hj.trans hn) (hfirst j hj)]
  case byte =>
    have hin : i < n + 1 := List.mem_range.1 hi
    rw [imageOf_group s i hc.1 (by omega), fromFrame_eq]

theorem decodeImage_of_noStop {s : State} (hc : s.ConfigLegal) (hnone : ∀ n, ¬ StopGroup s n) :
    decodeImage (imageOf .car s) = .error .unterminatedMessage :=
  read_of_no_stop fun j hj => (readGroup_imageOf_marker hc hj).trans (stopsAt_eq_false hj (hnone j))

/-- Settles O28: DEC and decode stop at the same group, and either gives the frames up to it. -/
theorem decBigStep : Obligations.DecBigStep := by
  refine fun s hp ha hc => ⟨fun n hstop hfirst => ?stop, fun hnone => ?none⟩
  case stop =>
    obtain ⟨t, ht, -, hmlen, hst, hbyte⟩ := exec_dec_stop s n hp ha hc hstop hfirst
    refine ⟨t, ht, hst, hmlen, fun i hi => ?number, ?decode⟩
    case number => rw [hbyte i hi, toNat_readGroup_carrier]
    case decode =>
      rw [decodeImage_of_stop hc hstop hfirst, payloadOf, hmlen]
      refine congrArg Except.ok (List.map_congr_left fun i hi => ?_)
      exact (hbyte i (Nat.le_of_lt_succ (List.mem_range.1 hi))).symm
  case none =>
    obtain ⟨t, ht, -, -, hst⟩ := exec_dec_noStop s ha hc hnone
    exact ⟨t, ht, hst, decodeImage_of_noStop hc hnone⟩

/-- Settles O29: the scan of the groups up to and with the first stopping group. -/
theorem decStateAfterSuccess : Obligations.DecStateAfterSuccess := by
  intro s n hp ha hc hstop hfirst
  obtain ⟨t, ht, P, hmlen, hst, hbyte⟩ := exec_dec_stop s n hp ha hc hstop hfirst
  obtain ⟨hg, hd, hf, hm⟩ := P.of_decStart.last_group
  obtain ⟨hnpix, hnch, hown, hcar, hout⟩ := P.of_decStart.frame
  have hs : stopsAt s n = true := ((stopGroup_iff s n).1 hstop).2
  exact ⟨t, ht, P.pxc, P.gix, BitVec.eq_of_toNat_eq (hmlen.trans P.gix.symm), hg, hd.trans (hbyte n le_rfl).symm, hf,
    hm.trans (congrArg markerReg hs), hst, hnpix, hnch, hown, hcar, hout, fun o ho => P.of_decStart.msg_beyond ho⟩

/-- Settles O30: the scan of every group of the image, of which there may be none. -/
theorem decStateAfterFailure : Obligations.DecStateAfterFailure := by
  intro s hp ha hc hnone
  obtain ⟨t, ht, P', hmlen, hst⟩ := exec_dec_noStop s ha hc hnone
  have P : DecPasses s t 0 (s.npix.toNat / 3) := P'.of_decStart
  have hbyte : ∀ i, i < s.npix.toNat / 3 → memRead .msg i t = (readGroup (carrierGroup s i)).1 :=
    fun i hi => P.byte i i.zero_le hi (group_lt_msgBytes s hp hc i hi)
  refine ⟨t, ht, hst, hmlen, P.gix, P.pxc, fun i hi => ?number, fun o ho => P.msg_beyond ho, fun hpos => ?working,
    fun hzero => P.none hzero.symm, P.frame⟩
  case number => rw [hbyte i hi, toNat_readGroup_carrier]
  case working =>
    obtain ⟨n, hn⟩ : ∃ n, s.npix.toNat / 3 = n + 1 := ⟨_, (Nat.sub_add_cancel hpos).symm⟩
    have hlt : n < s.npix.toNat / 3 := by omega
    rw [hn] at P ⊢
    obtain ⟨hg, hd, hf, hm⟩ := P.last_group
    rw [stopsAt_eq_false hlt (hnone n)] at hm
    exact ⟨hg, hf, hd.trans (hbyte n hlt).symm, hm⟩

end Sys2Proof.Machine
end

section
/-! PROOFS of the orchestration family, 4: ENC; COPYOUT; DEC gives the payload back (43_orchestration.md R84), and the
testable properties of R87. -/

namespace Sys2Proof.Machine

/-! ### The carrier after ENC; COPYOUT -/

theorem memRead_copyOut_car {s : State} (hc : s.ConfigLegal) {o : Nat} (ho : o < imageCells s) :
    memRead .car o (copyOut s) = memRead .out o s := by
  have hcap : o < s.cap .car := ho.trans_le hc.2.2
  rw [copyOut, memRead_fillCells, if_pos ⟨rfl, ho, hcap⟩]

section
variable {s t : State} (D : EncDone s t) (h : s.EncReady)
include D h

theorem EncDone.configLegal : t.ConfigLegal := by
  unfold State.ConfigLegal
  rw [D.npix, D.nch, D.own.1]
  exact h.2.1

/-- A smaller image fits where the image did. -/
theorem EncDone.copyOut_configLegal {np : Word} (hnp : np.toNat ≤ s.npix.toNat) :
    ({ copyOut t with npix := np } : State).ConfigLegal := by
  obtain ⟨hthree, hmax, hfit⟩ := h.2.1
  unfold State.ConfigLegal
  rw [copyOut, fillCells_nch, fillCells_params, D.nch, D.own.1]
  exact ⟨hthree, hmax, (Nat.mul_le_mul_right _ hnp).trans hfit⟩

theorem EncDone.copyOut_accepting : (copyOut t).Accepting := by
  unfold State.Accepting
  rw [copyOut, fillCells_status, D.status]
  exact h.1

/-- A group ENC wrote is loaded from the copy as its byte and its marker, whatever NPIX then is. -/
theorem EncDone.readGroup_copyOut (np : Word) {i : Nat} (hi : i < s.mlen.toNat) :
    readGroup (carrierGroup { copyOut t with npix := np } i) = (memRead .msg i s, decide (i + 1 = s.mlen.toNat)) := by
  refine readGroup_frame_of_slots _ _ _ fun k => ?_
  have hin : slotAt s i k < imageCells t := by
    rw [imageCells, D.npix, D.nch]
    exact slotAt_lt_imageCells s h i k hi k.isLt
  have hslot : slotAt { copyOut t with npix := np } i k = slotAt s i k := by simp [slotAt, copyOut, D.nch]
  have hread : memRead .car (slotAt s i k) { copyOut t with npix := np } = memRead .out (slotAt s i k) t :=
    memRead_copyOut_car (D.configLegal h) hin
  rw [Fin.getElem_fin, carrierGroup_slot, hslot, hread, D.slot i hi k, parity_forceParity, payloadBit, toFrame_eq]

/-- In the copy the last group alone stops DEC (41_write_path.md R71). -/
theorem EncDone.stopsAt_copyOut (np : Word) {i : Nat} (hi : i < s.mlen.toNat) :
    stopsAt { copyOut t with npix := np } i = decide (i + 1 = s.mlen.toNat) :=
  congrArg Prod.snd (D.readGroup_copyOut h np hi)

theorem EncDone.stopGroup_copyOut (np : Word) {i : Nat} (hi : i < s.mlen.toNat) (hin : i < np.toNat / 3) :
    StopGroup { copyOut t with npix := np } i ↔ i + 1 = s.mlen.toNat := by
  rw [stopGroup_iff, D.stopsAt_copyOut h np hi, decide_eq_true_eq]
  exact and_iff_right hin

/-- DEC of the copy ends at the last group written, with the bytes written (43_orchestration.md R84). -/
theorem EncDone.exec_dec_copyOut : ∃ u, exec .dec (copyOut t) = .next u ∧ u.status.done = true ∧ u.mlen = s.mlen
    ∧ ∀ i, i < s.mlen.toNat → memRead .msg i u = memRead .msg i s := by
  have ⟨_, _, hm, hcap, hfit⟩ := h
  have hnpix : (copyOut t).npix = s.npix := (fillCells_npix ..).trans D.npix
  have hparams : (copyOut t).params = s.params := (fillCells_params ..).trans D.own.1
  have hstop : ∀ i, i < s.mlen.toNat → (StopGroup (copyOut t) i ↔ i + 1 = s.mlen.toNat) :=
    fun i hi => D.stopGroup_copyOut h (copyOut t).npix hi (by rw [hnpix]; omega)
  have hlast : StopGroup (copyOut t) (s.mlen.toNat - 1) := (hstop _ (by omega)).2 (by omega)
  have hfirst : ∀ j, j < s.mlen.toNat - 1 → ¬ StopGroup (copyOut t) j :=
    fun j hj => (hstop j (by omega)).not.2 (by omega)
  obtain ⟨u, hu, P, hmlen, hdone⟩ := exec_dec_first_stop (D.copyOut_accepting h)
    (D.copyOut_configLegal h (np := (copyOut t).npix) (by rw [hnpix])) hlast hfirst
  refine ⟨u, hu, hdone, BitVec.eq_of_toNat_eq (hmlen.trans (Nat.sub_add_cancel hm)), fun i hi => ?byte⟩
  case byte =>
    rw [P.byte i i.zero_le (by omega) (by rw [hparams]; omega)]
    exact congrArg Prod.fst (D.readGroup_copyOut h (copyOut t).npix hi)

/-- DEC of the copy with the last group cut off finds no stopping group (43_orchestration.md R87 (d)). -/
theorem EncDone.exec_dec_truncated {np : Word} (hnp : np.toNat / 3 = s.mlen.toNat - 1) :
    ∃ u, exec .dec { copyOut t with npix := np } = .next u ∧ u.status = statusOfError 3 := by
  have ⟨_, _, hm, _, hfit⟩ := h
  have hnone : ∀ n, ¬ StopGroup { copyOut t with npix := np } n := fun n hn => by
    have hin : n < np.toNat / 3 := ((stopGroup_iff _ n).1 hn).1
    have hlast := (D.stopGroup_copyOut h np (by omega) hin).1 hn
    omega
  obtain ⟨u, hu, -, -, hst⟩ := exec_dec_noStop { copyOut t with npix := np } (D.copyOut_accepting h)
    (D.copyOut_configLegal h (by omega)) hnone
  exact ⟨u, hu, hst⟩

end

/-- Settles O53: the image by the groups of its encoding, the machine by the groups of the copy. -/
theorem roundTrip : Obligations.RoundTrip := by
  refine ⟨fun im p hok hp hfit => ?image, fun s h => ?machine⟩
  case image =>
    obtain ⟨im', hencode, E⟩ := encodeImage_encoded hok hp hfit
    exact ⟨im', hencode, E.decodeImage hp hfit⟩
  case machine =>
    obtain ⟨t, ht, D⟩ := exec_enc_done s h
    obtain ⟨u, hu, hresult⟩ := D.exec_dec_copyOut h
    exact ⟨t, u, ht, hu, hresult⟩

/-! ### Testable properties -/

/-- CLR leaves STATUS = 0x00 (44_system.md R90). -/
theorem exec_clr_eq (s : State) :
    exec .clr s = .next { s with status := { busy := false, done := false, errf := false, code := 0 } } := rfl

/-- Slot 8 carries the marker. -/
theorem EncDone.slot8_mod_two {s t : State} (D : EncDone s t) {i : Nat} (hi : i < s.mlen.toNat) :
    (memRead .out ((3 * i + 2) * s.nch.toNat + 2) t).toNat % 2 = (decide (i + 1 = s.mlen.toNat)).toNat :=
  (congrArg (fun v : Byte => v.toNat % 2) (D.slot i hi 8)).trans (mod_two_forceParity _ _)

/-- The carrier-size check reads nothing that raising its error or CLR changes (43_orchestration.md R87 (a)). -/
theorem exec_enc_small_repeats {s : State} (ha : s.Accepting) (hm : s.mlen.toNat ≠ 0) (hc : s.ConfigLegal)
    (hcap : s.mlen.toNat ≤ s.params.msgBytes) (hsmall : s.npix.toNat < 3 * s.mlen.toNat) :
    ∃ t u v, exec .enc s = .next t ∧ exec .clr t = .next u ∧ exec .enc u = .next v
      ∧ t.status.code = 2 ∧ SameBytes s t ∧ v.status = t.status ∧ SameBytes s v := by
  have hfail : ∀ st : Status, st.errf = false →
      exec .enc { s with status := st } = .next { s with status := statusOfError 2 } :=
    fun st hst => exec_enc_error (s := { s with status := st }) hst
      (encError_of_small (s := { s with status := st }) hm hc hcap hsmall)
  have hbytes : SameBytes s { s with status := statusOfError 2 } := (sameButWorking_update s s.g s.f s.m s.d _).bytes
  exact ⟨_, _, _, hfail s.status ha, exec_clr_eq _, hfail _ rfl, rfl, hbytes, rfl, hbytes⟩

/-- Settles O54: (a) and (c) by ENC's errors, (b) by slot 8 of each group, (d) by the groups of the copy. -/
theorem testableProperties : Obligations.TestableProperties := by
  refine ⟨fun s ha hc hm hcap hsmall => ?carrierSize, fun s h => ?stopBit, fun s ha h0 => ?emptyPayload,
    fun s np h _ hnp => ?truncation⟩
  case carrierSize => exact exec_enc_small_repeats ha (by omega) hc hcap (by omega)
  case stopBit =>
    obtain ⟨t, ht, D⟩ := exec_enc_done s h
    obtain ⟨-, -, hm, -⟩ := h
    refine ⟨t, ht, fun i hi => ?even, ?odd⟩
    case even => rw [D.slot8_mod_two (by omega), decide_eq_false (by omega), Bool.toNat_false]
    case odd => rw [D.slot8_mod_two (by omega), decide_eq_true (by omega), Bool.toNat_true]
  case emptyPayload => exact ⟨_, exec_enc_error ha (encError_of_mlen_zero (congrArg BitVec.toNat h0)), rfl⟩
  case truncation =>
    obtain ⟨t, ht, D⟩ := exec_enc_done s h
    obtain ⟨u, hu, hst⟩ := D.exec_dec_truncated h hnp
    exact ⟨t, u, ht, hu, hst⟩

end Sys2Proof.Machine
end

section
/-! PROOFS of the system family: what a write to CMD does, case by case (44_system.md R88), NOP (R89) and CLR (R90). -/

namespace Sys2Proof.Machine

/-! ### How a command is performed -/

/-- A command other than NOP and CLR goes through acceptance (44_system.md R88); FPAR with an index of 9 to 15 is an
illegal word (notes/assumptions/11.md). -/
theorem exec_eq_accept_or_illegalWord {i : Instr} (hnop : i ≠ .nop) (hclr : i ≠ .clr) :
    (∃ body, ∀ s, exec i s = accept body s) ∨ ∀ s, exec i s = .next (illegalWord s) := by
  cases i with
  | nop => exact absurd rfl hnop
  | clr => exact absurd rfl hclr
  | tofr => exact .inl ⟨applyTofr, fun _ => rfl⟩
  | frfr => exact .inl ⟨applyFrfr, fun _ => rfl⟩
  | fpar a w =>
    by_cases ha : a.toNat ≤ 8
    · exact .inl ⟨_, fun s => exec_fpar_legal a w s ha⟩
    · exact .inr fun s => exec_fpar_illegal a w s ha
  | wrg => exact .inl ⟨applyWrg, fun _ => rfl⟩
  | rdg => exact .inl ⟨applyRdg, fun _ => rfl⟩
  | enc => exact .inl ⟨encBody, fun _ => rfl⟩
  | dec => exact .inl ⟨decBody, fun _ => rfl⟩

theorem exec_latched {i : Instr} {s : State} (hs : s.status.errf = true) (hclr : i ≠ .clr) : exec i s = .next s := by
  by_cases hnop : i = .nop
  · subst hnop
    rfl
  · rcases exec_eq_accept_or_illegalWord hnop hclr with ⟨body, haccept⟩ | hillegal
    · rw [haccept, accept_latched body s hs]
    · rw [hillegal, illegalWord_latched (by simp [hs])]

theorem issue_latched {x : Word} {s : State} (hs : s.status.errf = true) (hx : decode (commandWord x) ≠ .ok .clr) :
    issue x s = .next s := by
  cases hd : decode (commandWord x) with
  | ok i => rw [issue_ok hd, exec_latched hs fun hclr => hx (hclr ▸ hd)]
  | error e => rw [issue_error hd, illegalWord_latched (by simp [hs])]

/-- Acceptance clears DONE, error entry and CLR write the whole of STATUS: only NOP sees the DONE it finds. -/
theorem exec_eq_exec_done_cleared {i : Instr} {s : State} (hs : s.Accepting) (hnop : i ≠ .nop) :
    exec i s = exec i { s with status := { s.status with done := false } } := by
  have hs' : State.Accepting { s with status := { s.status with done := false } } := hs
  by_cases hclr : i = .clr
  · subst hclr
    rfl
  · rcases exec_eq_accept_or_illegalWord hnop hclr with ⟨body, haccept⟩ | hillegal
    · rw [haccept, haccept, accept_accepting body s hs, accept_accepting body _ hs']
      rfl
    · rw [hillegal, hillegal, illegalWord_accepting hs, illegalWord_accepting hs']

/-- The STATUS that CLR leaves reads 0x00 (44_system.md R90). -/
theorem toByte_cleared_status : Status.toByte { busy := false, done := false, errf := false, code := 0 } = 0x00#8 := by
  decide

/-! ### The obligations -/

/-- Settles O34: a legal word is its command and any other an illegal word; each as the command is performed. -/
theorem commandAcceptance : Obligations.CommandAcceptance := by
  refine ⟨fun _ _ => BitVec.setWidth_append_eq_right, fun x s => ⟨fun hd => issue_ok hd s, issue_latched,
    fun e hs hd => ?illegal, fun _ hd => issue_ok hd s, fun i hs hnop hd => ?command⟩⟩
  case illegal => rw [issue_error hd, illegalWord_accepting hs]
  case command => rw [issue_ok hd, exec_eq_exec_done_cleared hs hnop]

/-- Settles O15: NOP does nothing by definition, and no other word of its opcode is legal. -/
theorem nopChangesNothing : Obligations.NopChangesNothing :=
  ⟨decode_of_encode_eq rfl rfl, fun _ => rfl,
    fun _ hop hbits => decode_error_of_not_legalWord (not_legalWord_of_operand (by omega) hbits)⟩

/-- Settles O22: the state after CLR, and the other commands while an error is latched. -/
theorem clrFollowsRule : Obligations.ClrFollowsRule :=
  ⟨decode_of_encode_eq rfl rfl, fun s => ⟨_, exec_clr_eq s, rfl, rfl, rfl, toByte_cleared_status, rfl⟩,
    fun _ _ => exec_latched⟩

end Sys2Proof.Machine
end

section
/-! PROOFS of the exceptions family: error entry (60_exceptions.md R94), every command ends (R92), the idle step (R99),
and how a latched error is left (R97, R98). -/

namespace Sys2Proof.Machine

/-! ### Error entry -/

/-- STATUS after error entry reads the code in its high half and ERRF alone in its low half (10_state.md R21). -/
theorem toByte_raised (k : ErrorKind) : (Status.raised k).toByte = k.code ++ 0x4#4 := by
  cases k <;> rfl

/-- Settles O35: `raise` replaces STATUS alone, and the five bytes are the five codes above ERRF. -/
theorem errorEntry : Obligations.ErrorEntry := fun _ =>
  ⟨fun _ => ⟨rfl, rfl, rfl, rfl, rfl⟩, toByte_raised .emptyPayload, toByte_raised .carrierTooSmall,
    toByte_raised .unterminatedMessage, toByte_raised .illegalCommand, toByte_raised .badConfig⟩

/-! ### Every command ends, and the idle step -/

theorem accept_ends (body : State → State) (s : State) : ∃ t, accept body s = .next t := by
  by_cases hs : s.status.errf = true
  · exact ⟨_, accept_latched body s hs⟩
  · exact ⟨_, accept_accepting body s (by simpa using hs)⟩

/-- Settles O33: NOP and CLR by definition, every other command as acceptance or an illegal word ends. -/
theorem everyCommandEnds : Obligations.EveryCommandEnds := by
  intro i s
  by_cases hnop : i = .nop
  · subst hnop
    exact ⟨s, rfl⟩
  by_cases hclr : i = .clr
  · subst hclr
    exact ⟨_, exec_clr_eq s⟩
  rcases exec_eq_accept_or_illegalWord hnop hclr with ⟨body, haccept⟩ | hillegal
  · rw [haccept]
    exact accept_ends body s
  · exact ⟨_, hillegal s⟩

/-- Settles O42: the host's next action is all a step performs. -/
theorem idleStepChangesNothing : Obligations.IdleStepChangesNothing := by
  intro s hp
  simp only [step, hostStep, hp]

/-! ### The latch -/

/-- The host actions that can take the machine out of a latched error: CLR's word written to CMD, and the reset input
(60_exceptions.md R97). -/
def LeavesLatch (a : HostAction) : Prop :=
  (∃ x, a = .wreg 0 x ∧ decode (commandWord x) = .ok .clr) ∨ a = .reset ∨ ∃ x, a = .resetDuring x

theorem ne_clr_of_not_leavesLatch {x : Word} (h : ¬ LeavesLatch (.wreg 0 x)) : decode (commandWord x) ≠ .ok .clr :=
  fun hx => h (.inl ⟨x, rfl, hx⟩)

/-- STATUS is read-only to the host (10_state.md R19). -/
theorem writeReg_status (r : Reg) (v : Word) (s : State) : (writeReg r v s).status = s.status := by
  cases r <;> rfl

/-- CMD has one number: it is no group register, and the other nine numbers name other registers (10_state.md R11). -/
theorem regOfNumber_eq_cmd {n : Nat} (h : regOfNumber n = some .cmd) : n = 0 := by
  by_cases hg : 0x10 ≤ n ∧ n ≤ 0x18
  · simp [regOfNumber, hg] at h
  · simpa [regOfNumber, hg, ite_eq_iff] using h

/-- A host write to any number but CMD's leaves STATUS. -/
theorem hostWriteReg_status {n : Nat} {v : Word} {s t : State} (hn : n ≠ 0) (h : hostWriteReg n v s = .next t) :
    t.status = s.status := by
  cases hr : regOfNumber n with
  | none =>
    rw [hostWriteReg_of_none hr] at h
    cases h
    rfl
  | some r =>
    rw [hostWriteReg_of_reg hr fun hcmd => hn (regOfNumber_eq_cmd (hcmd ▸ hr))] at h
    cases h
    exact writeReg_status r v s

/-- While an error is latched every word but CLR's is dropped (44_system.md R88); no other host access writes STATUS. -/
theorem hostAct_latched_status {a : HostAction} {s t : State} (hs : s.status.errf = true) (ha : ¬ LeavesLatch a)
    (h : hostAct a s = .next t) : t.status = s.status := by
  cases a with
  | wreg n v =>
    by_cases hn : n = 0
    · subst hn
      rw [hostAct_cmd, issue_latched hs (ne_clr_of_not_leavesLatch ha)] at h
      cases h
      rfl
    · exact hostWriteReg_status hn h
  | rreg n => cases h; rfl
  | wmem sp off v => cases h; exact memWrite_status sp off v s
  | rmem sp off => cases h; rfl
  | reset => exact absurd (.inr (.inl rfl)) ha
  | resetDuring x => exact absurd (.inr (.inr ⟨x, rfl⟩)) ha

/-- Settles O50: the step waits, or it is one host action, which leaves STATUS unless it is among `LeavesLatch`. -/
theorem latchLeftOnlyByClrOrReset : Obligations.LatchLeftOnlyByClrOrReset := by
  intro s t hs ht
  rcases step_cases ht with ⟨-, rfl⟩ | ⟨a, rest, hp, -, hact⟩
  · exact .inl ⟨hs, rfl⟩
  · by_cases ha : LeavesLatch a
    · exact .inr ⟨a, rest, hp, ha⟩
    · have hstatus : t.status = s.status := hostAct_latched_status (s := { s with pending := rest }) hs ha hact
      exact .inl ⟨hstatus ▸ hs, congrArg Status.code hstatus⟩

end Sys2Proof.Machine
end


section
/-! PROOFS of the reset and hazards family: a command cut short by reset (70_reset_and_hazards.md R104, R105), the host
while a command is executing (R108), and ENC and DEC straight after reset (R104). -/

namespace Sys2Proof.Machine

/-! ### A command cut short -/

/-- The cells a write of `x` to CMD, cut short by reset, could have written (70_reset_and_hazards.md R105,
notes/assumptions/5.md): the image in OUT for an ENC that would succeed, one cell of MSG per group for a DEC that passes
its check, and none of CAR. -/
def CutCell (x : Word) (s : State) : Space → Nat → Prop
  | .car, _ => False
  | .out, o => decode (commandWord x) = .ok .enc ∧ s.EncReady ∧ o < s.npix.toNat * s.nch.toNat
  | .msg, o => decode (commandWord x) = .ok .dec ∧ s.Accepting ∧ s.ConfigLegal ∧ o < s.npix.toNat / 3

/-- A command cut short is a reset of a state that differs, as far as reset can see, in those cells alone. -/
theorem issueThenReset_eq_resetMachine (x : Word) (s : State) :
    ∃ u, issueThenReset x s = resetMachine u ∧ SameOwn s u
      ∧ ∀ sp o, ¬ CutCell x s sp o → memRead sp o u = memRead sp o s := by
  cases hd : decode (commandWord x) with
  | error e => exact ⟨s, by simp only [issueThenReset, hd], ⟨rfl, rfl, rfl, rfl⟩, fun _ _ _ => rfl⟩
  | ok i =>
    obtain ⟨hparams, hpending, hreply, hdraws, hread⟩ := cutShort_keeps i s
    refine ⟨cutShort i s, by simp only [issueThenReset, hd], ⟨hparams, hpending, hreply, hdraws⟩,
      fun sp o hcell => hread sp o ?out ?msg⟩
    case out => rintro ⟨rfl, rfl, hcut⟩; exact hcell ⟨hd, hcut⟩
    case msg => rintro ⟨rfl, rfl, hcut⟩; exact hcell ⟨hd, hcut⟩

theorem cap_of_params {s t : State} (h : t.params = s.params) (sp : Space) : t.cap sp = s.cap sp := by
  cases sp <;> simp only [State.cap, h]

/-- Every cell the command could not have written is reset as with no command executing. -/
theorem resetBytesIn_issueThenReset (x : Word) (s : State) (sp : Space) :
    ResetBytesIn sp (CutCell x s sp) s (issueThenReset x s) := by
  obtain ⟨u, hu, ⟨hparams, -, -, hdraws⟩, hread⟩ := issueThenReset_eq_resetMachine x s
  intro o ho hcell
  rw [hu, memRead_resetMachine sp o u ((cap_of_params hparams sp).symm ▸ ho), hdraws, hread sp o hcell]

/-- What reset does to a byte does not depend on the host's pending actions. -/
theorem ResetBytesIn.of_pending {sp : Space} {lost : Nat → Prop} {s t : State} {rest : List HostAction}
    (h : ResetBytesIn sp lost { s with pending := rest } t) : ResetBytesIn sp lost s t := by
  intro o ho hlost
  rw [h o ((cap_pending sp s rest).symm ▸ ho) hlost, memRead_pending]

/-- Settles O46: the step is the reset of what the cut command left, in each of the three memories. -/
theorem resetCutsCommandShort : Obligations.ResetCutsCommandShort := by
  intro s x rest hp hb
  obtain ⟨u, hu, ⟨hparams, hpending, hreply, -⟩, -⟩ := issueThenReset_eq_resetMachine x { s with pending := rest }
  have hbytes := resetBytesIn_issueThenReset x { s with pending := rest }
  rw [hu] at hbytes
  have hstep : step s = .next (resetMachine u) := (step_of_pending hp hb).trans (congrArg Host.Outcome.next hu)
  exact ⟨resetMachine u, hstep, registersReset_resetMachine u, (resetMachine_params u).trans hparams,
    (resetMachine_pending u).trans hpending, (resetMachine_reply u).trans hreply,
    (hbytes .car).of_pending, (hbytes .out).of_pending, (hbytes .msg).of_pending⟩

/-! ### While a command is executing -/

/-- The only register the host may read while BUSY = 1 is STATUS, number 1 (70_reset_and_hazards.md R108). -/
theorem not_allowedWhileBusy {a : HostAction} (hread : a ≠ .rreg 1) (hreset : a ≠ .reset) :
    allowedWhileBusy a = false := by
  cases a with
  | wreg n v => rfl
  | rreg n => exact beq_false_of_ne fun hn => hread (hn ▸ rfl)
  | wmem sp off v => rfl
  | rmem sp off => rfl
  | reset => exact absurd rfl hreset
  | resetDuring x => rfl

/-- What is allowed while BUSY = 1 is performed whether or not a command is executing. -/
theorem step_of_allowedWhileBusy {s : State} {a : HostAction} {rest : List HostAction} (hp : s.pending = a :: rest)
    (ha : allowedWhileBusy a = true) : step s = hostAct a { s with pending := rest } := by
  simp [step, hostStep, hp, ha]

/-- What is not allowed while BUSY = 1 is refused by name (notes/assumptions/6.md). -/
theorem step_refused_of_busy {s : State} {a : HostAction} {rest : List HostAction} (hp : s.pending = a :: rest)
    (hb : s.status.busy = true) (ha : allowedWhileBusy a = false) : step s = .refused .hostAccessWhileBusy := by
  simp [step, hostStep, hp, hb, ha]

/-- Settles O43: by `allowedWhileBusy`; a read of number 1 replies with STATUS. -/
theorem hostAccessWhileBusy : Obligations.HostAccessWhileBusy := by
  intro s a rest hp hb
  refine ⟨fun hread hreset => step_refused_of_busy hp hb (not_allowedWhileBusy hread hreset), ?status⟩
  case status => rintro rfl; exact step_of_allowedWhileBusy hp rfl

/-! ### Straight after reset -/

/-- With no whole group in the image DEC's scan is over before it begins (43_orchestration.md R83). -/
theorem exec_dec_of_no_group {s : State} (ha : s.Accepting) (hc : s.ConfigLegal) (hn : s.npix.toNat / 3 = 0) :
    exec .dec s = .next { s with mlen := 0, pxc := 0, gix := 0, status := statusOfError 3 } := by
  rw [exec_dec_legal s ha hc, hn]
  rfl

/-- The reset configuration, no pixels of 3 channels, is legal whatever the parameters (00_scope.md R9 (a)). -/
theorem configLegal_reset_with_params {p : Params} (hp : p.Ok) :
    ({ State.reset with params := p } : State).ConfigLegal := by
  obtain ⟨hnch, -, -, -⟩ := hp
  exact ⟨le_refl 3, hnch, Nat.zero_le _⟩

/-- Settles O47: ENC's first check fails on MLEN = 0, and DEC, whose check passes, finds no group to read. -/
theorem commandsStraightAfterReset : Obligations.CommandsStraightAfterReset := fun _ hp =>
  ⟨exec_enc_error rfl (encError_of_mlen_zero rfl),
    exec_dec_of_no_group rfl (configLegal_reset_with_params hp) (Nat.zero_div 3)⟩

end Sys2Proof.Machine
end
